-- ==== Sys2Proof/Word.lean ====
section
/-! DEFINITION. The word type and the readings of a word (00_scope.md rule R9). -/

namespace Sys2Proof

/-- A word: a 64-bit bit vector (rule R9, XLEN of rule R6). -/
abbrev Word := BitVec 64

/-- A byte of LAYOUT or STR (rule R31, rule R32). -/
abbrev Byte := BitVec 8

/-- ALL1, the word with every bit 1 (rule R9). -/
def all1 : Word := 0xFFFF_FFFF_FFFF_FFFF#64

/-- `sint(x)`: the two's-complement reading, in [-2^63, 2^63 - 1] (rule R9). -/
def sint (x : Word) : Int := x.toInt

/-- `uint(x)`: the unsigned reading, in [0, 2^64 - 1] (rule R9). -/
def uint (x : Word) : Nat := x.toNat

/-- `word(a)`: the word whose unsigned value is a mod 2^64 (rule R9, rule R10). -/
def word (a : Int) : Word := BitVec.ofInt 64 a

end Sys2Proof
end

