-- ==== Sys2Proof/Config.lean ====
section
/-! DEFINITION. The parameters of the hardware (00_scope.md rule R6, 93_implementation_defined.md part 3):
the values the spec gives this hardware, and the parameters it leaves open. An open parameter has no body that
a proof could see, so every claim holds for each of its values. -/

namespace Sys2Proof.Config

open Sys2Proof

/-- PACK_DEPTH (rule R6): element slots of the packer. -/
def packDepth : Nat := 16

/-- LAYOUT_DEPTH (rule R6): width slots of the unpacker and field slots of its output. -/
def layoutDepth : Nat := 64

/-- STR_LEN_MAX (rule R6): character slots of the renderer. -/
def strLenMax : Nat := 72

/-- The size of the register window in bytes (rule R21). -/
def windowBytes : Nat := 0x400

/-- STR_SEP (rule R6, rule R173): the group separator, a named parameter that this hardware takes as 0x20. -/
def strSep : Byte := 0x20#8

/-- DEFAULT_LAYOUT (rule R6): the layout of UNPK with M0 = 1. -/
def defaultLayout : List Nat := [8, 8, 8, 8, 8, 8, 8, 8]

/-- ID_VALUE (rule R6, rule R22). -/
def idValue : Word := 0x5059_4249_545F_0007#64

/-- The failure sentinel of GETB, SETB, CUTB and PACK (rule R183): ALL1. -/
def sentinel : Word := all1

/-- The fallback of the mask function (rule R110): ALL1. -/
def maskFallback : Word := all1

/-- BASE (rule R6, rule R51): the window's address in the host's address space. OPEN, so no body is visible. -/
opaque base : Nat

/-- LAT (rule R6, rule R206) as the model needs it: how many host accesses arrive between the acceptance
of a command and its completion. A FREE VALUE, drawn afresh for each accepted command (assumption log 2). -/
opaque latency : Nat → Nat

/-- DIAG_TEXT(op, err) (rule R185): the text the platform's sink prints for an event. OPEN. -/
opaque diagText : BitVec 4 → BitVec 4 → String

end Sys2Proof.Config
end

