-- ==== Sys2Proof/Syntax.lean ====
section
/-! DEFINITION. The commands, one constructor per row of spec/opcode_table.json (30_encoding.md rule R71, rule R73). -/

namespace Sys2Proof

/-- A command with the immediates of its word: the mode bits its opcode defines (rule R73) and,
for PACK and UNPK, the element count CNT (rule R72). -/
inductive Instr where
  /-- `clsv`: classify by value (rule R101). -/
  | clsv
  /-- `clsb`: classify by bit count (rule R103). -/
  | clsb
  /-- `mask`: the mask for a width (rule R111). -/
  | mask
  /-- `getb[.strict][.tb]`: read one bit (rule R121); M0 = STRICT, M1 = TB. -/
  | getb (strict tb : Bool)
  /-- `setb.s`, `setb.c`: set or clear one bit (rule R123); M0 = S, M1 = TB, M2 = ANDN. -/
  | setb (st tb andn : Bool)
  /-- `cutb[.tr]`: extract a bit range (rule R126); M0 = TR. -/
  | cutb (tr : Bool)
  /-- `pack[.fm] N`: pack a sequence (rule R151); M0 = FM. -/
  | pack (fm : Bool) (cnt : BitVec 8)
  /-- `unpk N`: unpack by LAYOUT (rule R161 with M0 = 0). -/
  | unpk (cnt : BitVec 8)
  /-- `unpk.dflt`: unpack by the default layout (rule R161 with M0 = 1). -/
  | unpkDflt
  /-- `strf`: render the bit pattern (rule R171). -/
  | strf
  deriving DecidableEq, Repr

end Sys2Proof
end

