-- ==== Sys2Proof/WellFormed.lean ====
section
/-! DEFINITION. Which terms of `Instr` a legal command word can hold (30_encoding.md rule R72, rule R74). -/

namespace Sys2Proof

/-- The count of a PACK is 0..PACK_DEPTH, that of an UNPK 0..LAYOUT_DEPTH (rule R72); every other
immediate is a single bit and admits both values. -/
def Instr.wellFormed : Instr → Bool
  | .clsv => true
  | .clsb => true
  | .mask => true
  | .getb _ _ => true
  | .setb _ _ _ => true
  | .cutb _ => true
  | .pack _ cnt => decide (cnt.toNat ≤ Config.packDepth)
  | .unpk cnt => decide (cnt.toNat ≤ Config.layoutDepth)
  | .unpkDflt => true
  | .strf => true

end Sys2Proof
end

