-- ==== Sys2Proof/Decode.lean ====
section
/-! DEFINITION. The command word (30_encoding.md rule R70): its fields, the decoder, total on every word and
rejecting by name (rule R74, rule R76), and the encoder (rule R78). -/

namespace Sys2Proof

/-- Why a command word is illegal (rule R76). Every reason has the same effect, rule R182. -/
inductive Illegal where
  /-- A bit of RES, bits 63:16, is not 0. -/
  | reservedBits
  /-- M3, bit 7, which no opcode defines, is not 0. -/
  | modeBitThree
  /-- OP is 0x0 or 0xA..0xF. -/
  | noSuchOpcode
  /-- A mode bit that the opcode does not define is not 0. -/
  | undefinedMode
  /-- CNT is above what the opcode allows: 0, PACK_DEPTH or LAYOUT_DEPTH. -/
  | countOutOfRange
  deriving DecidableEq, Repr

/-- OP, bits 3:0 (rule R70). -/
def fieldOp (c : Word) : BitVec 4 := c.extractLsb' 0 4

/-- M2, M1 and M0 as one field, bits 6:4 (rule R70). -/
def fieldModes (c : Word) : BitVec 3 := c.extractLsb' 4 3

/-- M0, bit 4 (rule R70). -/
def fieldM0 (c : Word) : Bool := c.getLsbD 4

/-- M1, bit 5 (rule R70). -/
def fieldM1 (c : Word) : Bool := c.getLsbD 5

/-- M2, bit 6 (rule R70). -/
def fieldM2 (c : Word) : Bool := c.getLsbD 6

/-- M3, bit 7 (rule R70). -/
def fieldM3 (c : Word) : Bool := c.getLsbD 7

/-- CNT, bits 15:8 (rule R70). -/
def fieldCnt (c : Word) : BitVec 8 := c.extractLsb' 8 8

/-- RES, bits 63:16 (rule R70). -/
def fieldRes (c : Word) : BitVec 48 := c.extractLsb' 16 48

/-- The legality of the mode bits and of CNT for one opcode (rule R74): `allowed` has a 1 for each mode bit
the opcode defines, and CNT is at most `maxCnt`. -/
def withImmediates (c : Word) (allowed : BitVec 3) (maxCnt : Nat) (i : Instr) : Except Illegal Instr :=
  if fieldModes c &&& ~~~allowed ≠ 0#3 then .error .undefinedMode
  else if maxCnt < (fieldCnt c).toNat then .error .countOutOfRange
  else .ok i

/-- The command a word stands for, selected by OP alone (rule R70, rule R71), or why it is illegal (rule R74). -/
def decode (c : Word) : Except Illegal Instr :=
  if fieldRes c ≠ 0#48 then .error .reservedBits
  else if fieldM3 c then .error .modeBitThree
  else match (fieldOp c).toNat with
    | 0x1 => withImmediates c 0b000#3 0 .clsv
    | 0x2 => withImmediates c 0b000#3 0 .clsb
    | 0x3 => withImmediates c 0b000#3 0 .mask
    | 0x4 => withImmediates c 0b011#3 0 (.getb (fieldM0 c) (fieldM1 c))
    | 0x5 => withImmediates c 0b111#3 0 (.setb (fieldM0 c) (fieldM1 c) (fieldM2 c))
    | 0x6 => withImmediates c 0b001#3 0 (.cutb (fieldM0 c))
    | 0x7 => withImmediates c 0b001#3 Config.packDepth (.pack (fieldM0 c) (fieldCnt c))
    | 0x8 =>
      if fieldM0 c then withImmediates c 0b001#3 0 .unpkDflt
      else withImmediates c 0b001#3 Config.layoutDepth (.unpk (fieldCnt c))
    | 0x9 => withImmediates c 0b000#3 0 .strf
    | _ => .error .noSuchOpcode

/-- OP of a command (rule R71). -/
def Instr.opcode : Instr → BitVec 4
  | .clsv => 0x1#4
  | .clsb => 0x2#4
  | .mask => 0x3#4
  | .getb _ _ => 0x4#4
  | .setb _ _ _ => 0x5#4
  | .cutb _ => 0x6#4
  | .pack _ _ => 0x7#4
  | .unpk _ => 0x8#4
  | .unpkDflt => 0x8#4
  | .strf => 0x9#4

/-- A mode bit standing at bit `pos` of the command word (rule R78). -/
def modeAt (b : Bool) (pos : Nat) : Word := (BitVec.ofBool b).setWidth 64 <<< pos

/-- CNT standing at bits 15:8 of the command word (rule R78). -/
def cntAt (cnt : BitVec 8) : Word := cnt.setWidth 64 <<< 8

/-- The command word of an instruction: the OR of the parts of rule R78's table. -/
def encode : Instr → Word
  | .clsv => 0x1#64
  | .clsb => 0x2#64
  | .mask => 0x3#64
  | .getb strict tb => 0x4#64 ||| modeAt strict 4 ||| modeAt tb 5
  | .setb st tb andn => 0x5#64 ||| modeAt st 4 ||| modeAt tb 5 ||| modeAt andn 6
  | .cutb tr => 0x6#64 ||| modeAt tr 4
  | .pack fm cnt => 0x7#64 ||| modeAt fm 4 ||| cntAt cnt
  | .unpk cnt => 0x8#64 ||| cntAt cnt
  | .unpkDflt => 0x18#64
  | .strf => 0x9#64

/-- The decoder on a numbered instruction: `nbits` bits of `w`, every bit above them 0. A command is one
64-bit word that moves whole (rule R70, rule R53), so a longer value is no command. -/
def decodeTableWord (nbits w : Nat) : Option Instr :=
  let v := w % 2 ^ nbits
  if v < 2 ^ 64 then (decode (BitVec.ofNat 64 v)).toOption else none

end Sys2Proof
end

