-- ==== Sys2Proof/Machine/State.lean ====
section
/-! DEFINITION. The state of the block (10_state.md rule R20), the host's side of the window as plain data,
the reset state (70_reset_and_hazards.md rule R200), and the reasons a step can stop. -/

namespace Sys2Proof.Machine

open Sys2Proof

/-- One diagnostic event (rule R185): bits 3:0 of the command word, and the error code. -/
structure DiagEvent where
  op : BitVec 4
  err : BitVec 4
  deriving DecidableEq, Repr

/-- What the outside world can do to the block (rule R3, rule R52, rule R200). Addresses are the platform's:
the window offset is the distance from BASE (rule R51). -/
inductive HostOp where
  /-- A read of `size` bytes at a platform address. -/
  | read (addr size : Nat)
  /-- A write of `size` bytes at a platform address; `v` is the value of an 8-byte write. -/
  | write (addr size : Nat) (v : Word)
  /-- The pseudo `wait` of rule R79: read STATUS, and again while BUSY is 1. -/
  | wait
  /-- The platform asserts the reset input (rule R200). -/
  | assertReset
  /-- The platform releases the reset input (rule R200). -/
  | releaseReset
  deriving DecidableEq, Repr

/-- The state. The fields from `statusDone` to `diaglog` are the spec's record (rule R20); the rest are the model's own
(INVENTORY.md, State). -/
structure State where
  /-- STATUS_DONE. -/
  statusDone : Bool
  /-- STATUS_FAIL. -/
  statusFail : Bool
  /-- STATUS_ERR. -/
  statusErr : BitVec 4
  /-- STATUS_PROTO, the sticky PROTO_ERR. -/
  statusProto : Bool
  /-- STATUS_LASTOP. -/
  statusLastOp : BitVec 4
  /-- OPA, operand A (rule R25). -/
  opa : Word
  /-- OPB, operand B (rule R25). -/
  opb : Word
  /-- OPC, operand C (rule R25). -/
  opc : Word
  /-- RESULT (rule R26). -/
  result : Word
  /-- COUNT (rule R27). -/
  count : BitVec 7
  /-- ELEM_NI (rule R28). -/
  elemNi : BitVec 16
  /-- LAYOUT_NI (rule R29). -/
  layoutNi : BitVec 64
  /-- ELEM[0..15] (rule R30). -/
  elem : Vector Word 16
  /-- LAYOUT[0..63] (rule R31). -/
  layout : Vector Byte 64
  /-- STR[0..71] (rule R32). -/
  str : Vector Byte 72
  /-- OUT[0..63] (rule R33). -/
  out : Vector Word 64
  /-- PEND, the accepted command not yet completed (rule R37). -/
  pend : Option Word
  /-- DIAGLOG, the diagnostic event history (rule R185). -/
  diaglog : List DiagEvent
  /-- Model's own: the reset input is asserted (assumption log 3). -/
  inReset : Bool
  /-- Model's own: the host accesses that have not arrived yet, in arrival order (assumption log 1). -/
  host : List HostOp
  /-- Model's own: the values returned to the host's reads, oldest first (assumption log 1). -/
  reads : List Word
  /-- Model's own: host accesses that still precede the pending completion (assumption log 2). -/
  lat : Nat
  /-- Model's own: how many latencies have been drawn (assumption log 2). -/
  draws : Nat
  deriving DecidableEq, Repr

/-- The state right after reset (rule R200): every register 0, nothing pending. DIAGLOG, a history, is empty
(assumption log 4), the reset input is released, and the host has asked for nothing (assumption logs 1 to 3). -/
def State.reset : State where
  statusDone := false
  statusFail := false
  statusErr := 0#4
  statusProto := false
  statusLastOp := 0#4
  opa := 0#64
  opb := 0#64
  opc := 0#64
  result := 0#64
  count := 0#7
  elemNi := 0#16
  layoutNi := 0#64
  elem := Vector.replicate 16 0#64
  layout := Vector.replicate 64 0#8
  str := Vector.replicate 72 0#8
  out := Vector.replicate 64 0#64
  pend := none
  diaglog := []
  inReset := false
  host := []
  reads := []
  lat := 0
  draws := 0

/-- Why the machine stops. No command raises one: the block has no traps (rule R186). -/
inductive Fault where
  /-- Raised by a host read or write whose address is not in the window [BASE, BASE + 0x400), so that it is
  no access of this block (rule R51). Safe: the model stops where the hardware goes on (assumption log 6). -/
  | outsideWindow
  deriving DecidableEq, Repr

/-- Why a step has no meaning. Every command of the opcode table has one, so no arm of exec answers with it. -/
inductive Refusal where
  /-- Raised by an arm of exec for an instruction without a meaning, under its mnemonic. Safe: the model
  stops. No arm raises it. -/
  | notModelled (mnemonic : String)
  deriving DecidableEq, Repr

end Sys2Proof.Machine
end

