-- ==== Sys2Proof/Machine/Operands.lean ====
section
/-! DEFINITION. The integer operators of the pseudocode (00_scope.md rule R8), the canonical widths and the mask
(rule R12, 40_width_classifier.md, 41_bit_mask_generator.md), the index and range checks (42_bit_extractor.md),
and the operand forms (30_encoding.md rule R75). -/

namespace Sys2Proof.Machine

open Sys2Proof

/-! ### Operators on unbounded integers (rule R8) -/

/-- `~a` is -a - 1 (rule R8). -/
def znot (a : Int) : Int := -a - 1

/-- `a & b` on two's-complement bit strings with infinite sign extension (rule R8). -/
def zand : Int → Int → Int
  | .ofNat m, .ofNat n => .ofNat (m &&& n)
  | .ofNat m, .negSucc n => .ofNat (m ^^^ (m &&& n))
  | .negSucc m, .ofNat n => .ofNat (n ^^^ (n &&& m))
  | .negSucc m, .negSucc n => .negSucc (m ||| n)

/-- `a | b` on two's-complement bit strings with infinite sign extension (rule R8). -/
def zor (a b : Int) : Int := znot (zand (znot a) (znot b))

/-- `a ^ b` on two's-complement bit strings with infinite sign extension (rule R8). -/
def zxor : Int → Int → Int
  | .ofNat m, .ofNat n => .ofNat (m ^^^ n)
  | .ofNat m, .negSucc n => .negSucc (m ^^^ n)
  | .negSucc m, .ofNat n => .negSucc (m ^^^ n)
  | .negSucc m, .negSucc n => .ofNat (m ^^^ n)

/-- `a << s` is a · 2^s (rule R8). -/
def shl (a : Int) (s : Nat) : Int := a * 2 ^ s

/-- `a >> s` is floor(a / 2^s), an arithmetic shift (rule R8). It is written as the integer shift, which evaluates at
every shift amount; `shr_eq_div` of Laws/Bits.lean says that it is the floor. -/
def shr (a : Int) (s : Nat) : Int := a >>> s

/-- Bit i of an integer, floor(a / 2^i) mod 2 (rule R8). -/
def zbit (a : Int) (i : Nat) : Bool := shr a i % 2 == 1

/-- The mask of the low `n` bits, `(1 << n) - 1`. -/
def lowMask (n : Nat) : Int := shl 1 n - 1

/-! ### Canonical widths and the mask (rule R12) -/

/-- A canonical width, one of CANON = 8, 16, 32, 64 (rule R6, rule R105). -/
inductive Width where
  | eight
  | sixteen
  | thirtyTwo
  | sixtyFour
  deriving DecidableEq, Repr

/-- The width in bits. -/
def Width.bits : Width → Nat
  | .eight => 8
  | .sixteen => 16
  | .thirtyTwo => 32
  | .sixtyFour => 64

/-- `wc(w)`, the 2-bit width code on the width bus (rule R12, rule R105). -/
def Width.code : Width → BitVec 2
  | .eight => 0#2
  | .sixteen => 1#2
  | .thirtyTwo => 2#2
  | .sixtyFour => 3#2

/-- `cw(n)`, classification by value (rule R100): the checks in the order 8, 16, 32, 64. -/
def cw (n : Int) : Width :=
  if -128 ≤ n ∧ n ≤ 127 then .eight
  else if -32768 ≤ n ∧ n ≤ 32767 then .sixteen
  else if -2147483648 ≤ n ∧ n ≤ 2147483647 then .thirtyTwo
  else .sixtyFour

/-- `cb(b)`, classification by bit count, with 8 as the fallback (rule R102). -/
def cb (b : Int) : Width :=
  if b = 8 then .eight
  else if b = 16 then .sixteen
  else if b = 32 then .thirtyTwo
  else if b = 64 then .sixtyFour
  else .eight

/-- `mk(w)`, the mask of w one-bits at the most-significant end, or the fallback (rule R110). -/
def mk (w : Int) : Word :=
  if w = 8 ∨ w = 16 ∨ w = 32 ∨ w = 64 then word (shl (lowMask w.toNat) (64 - w.toNat))
  else Config.maskFallback

/-! ### Error kinds and checks -/

/-- The error kinds, in the order of their codes (rule R180). -/
inductive BitError where
  | indexOutOfRange
  | indexNotPositive
  | rangeExceedsWidth
  | rangeNotPositive
  | invalidRange
  | nonIntegerElement
  | totalWidthExceeded
  | illegalCommand
  deriving DecidableEq, Repr

/-- The legal bound B of an index: the width with TB, eight times the width in the legacy check (rule R120). -/
def indexBound (num : Int) (tb : Bool) : Nat :=
  if tb then (cw num).bits else 8 * (cw num).bits

/-- `idxcheck(num, index, TB)` (rule R120); none is OK. -/
def idxcheck (num index : Int) (tb : Bool) : Option BitError :=
  if index > indexBound num tb then some .indexOutOfRange
  else if index ≤ 0 then some .indexNotPositive
  else none

/-- `cutcheck(num, from, to)` (rule R125), the three conditions in that order; none is OK. -/
def cutcheck (num lo hi : Int) : Option BitError :=
  if lo > (cw num).bits ∨ hi > (cw num).bits then some .rangeExceedsWidth
  else if lo ≤ 0 ∨ hi ≤ 0 then some .rangeNotPositive
  else if lo ≥ hi then some .invalidRange
  else none

/-! ### Operand assembly (rule R25, rule R75) -/

/-- OPA read as sint (rule R25). -/
def opaInt (s : State) : Int := sint s.opa

/-- OPB read as sint (rule R25). -/
def opbInt (s : State) : Int := sint s.opb

/-- OPC read as sint (rule R25). -/
def opcInt (s : State) : Int := sint s.opc

/-- Pack element i: its ELEM_NI tag, and ELEM[i] as sint (rule R28, rule R30). No legal command reads
at or beyond PACK_DEPTH; there an entry reads as an untagged 0 (assumption log 12). -/
def elemAt (s : State) (i : Nat) : Bool × Int :=
  (s.elemNi.getLsbD i, sint (s.elem.getD i 0#64))

/-- Layout entry i: its LAYOUT_NI tag, and LAYOUT[i] as an unsigned width (rule R29, rule R31). No legal
command reads at or beyond LAYOUT_DEPTH; there an entry reads as an untagged 0 (assumption log 12). -/
def layoutAt (s : State) (i : Nat) : Bool × Nat :=
  (s.layoutNi.getLsbD i, (s.layout.getD i 0#8).toNat)

/-- The input sequence of PACK: the first `n` elements, in sequence order (rule R72). -/
def packInputs (s : State) (n : Nat) : List (Bool × Int) := (List.range n).map (elemAt s)

/-- The layout of UNPK with M0 = 0: the first `n` entries, in layout order (rule R72). -/
def layoutInputs (s : State) (n : Nat) : List (Bool × Nat) := (List.range n).map (layoutAt s)

/-- The layout of UNPK with M0 = 1: DEFAULT_LAYOUT, no entry tagged (rule R161). -/
def defaultInputs : List (Bool × Nat) := Config.defaultLayout.map fun d => (false, d)

end Sys2Proof.Machine
end

