-- ==== Sys2Proof/Machine/Flags.lean ====
section
/-! DEFINITION. The STATUS register and its flags (10_state.md rule R24, rule R36) and the error codes
(60_exceptions.md rule R180). The block has no condition codes. -/

namespace Sys2Proof.Machine

open Sys2Proof

/-- The code of an error (rule R180). -/
def BitError.code : BitError → BitVec 4
  | .indexOutOfRange => 1#4
  | .indexNotPositive => 2#4
  | .rangeExceedsWidth => 3#4
  | .rangeNotPositive => 4#4
  | .invalidRange => 5#4
  | .nonIntegerElement => 6#4
  | .totalWidthExceeded => 7#4
  | .illegalCommand => 8#4

/-- The value of STATUS.ERR: the error's code, 0 when there is none (rule R24, rule R180). -/
def errCode : Option BitError → BitVec 4
  | none => 0#4
  | some e => e.code

/-- STATUS.BUSY: derived from PEND (rule R20, rule R24). -/
def busy (s : State) : Bool := s.pend.isSome

/-- STATUS as it is read: LAST_OP 15:12, PROTO_ERR 8, ERR 7:4, FAIL 2, DONE 1, BUSY 0; every reserved
bit 0 (rule R24). -/
def statusWord (s : State) : Word :=
  0#48 ++ s.statusLastOp ++ 0#3 ++ BitVec.ofBool s.statusProto ++ s.statusErr ++ 0#1 ++
    BitVec.ofBool s.statusFail ++ BitVec.ofBool s.statusDone ++ BitVec.ofBool (busy s)

/-- The effect of a host write of STATUS: PROTO_ERR is cleared where bit 8 of the value is 1, and nothing
else changes (rule R24). -/
def statusWrite (v : Word) (s : State) : State :=
  { s with statusProto := s.statusProto && !v.getLsbD 8 }

/-- The events a completion appends to DIAGLOG: exactly one where there is an error, else none (rule R185). -/
def diagEvents (op : BitVec 4) : Option BitError → List DiagEvent
  | none => []
  | some e => [{ op := op, err := e.code }]

end Sys2Proof.Machine
end

