-- ==== Sys2Proof/Machine/Ops.lean ====
section
/-! DEFINITION. The shared operations of a completion (20_memory.md rule R57, 60_exceptions.md rules R182 to R185). The
block takes no trap (rule R186): the failure of a command is the operation that stands in that place, and nothing
returns from it (rule R187). -/

namespace Sys2Proof.Machine

open Sys2Proof

/-- What EXEC gives for a legal command (rule R57): the outputs it writes, the error and whether it failed. OUT
and STR are written only where the command's rule says so. -/
structure Effects where
  result : Word
  count : BitVec 7
  out : Option (Vector Word 64)
  str : Option (Vector Byte 72)
  err : Option BitError
  failed : Bool
  deriving DecidableEq, Repr

/-- A success whose only outputs are RESULT and COUNT = 0 (rule R26, rule R27). -/
def scalarOk (r : Word) : Effects :=
  { result := r, count := 0#7, out := none, str := none, err := none, failed := false }

/-- `diag E`: the result stands, the error is reported, the command does not fail (rule R184). -/
def scalarDiag (e : BitError) (r : Word) : Effects :=
  { scalarOk r with err := some e }

/-- `fail E` of GETB, SETB, CUTB and PACK: RESULT is the sentinel and COUNT 0 (rule R183). -/
def scalarFail (e : BitError) : Effects :=
  { scalarOk Config.sentinel with err := some e, failed := true }

/-- The outputs of UNPK on success: n fields in OUT, the rest of OUT 0, COUNT = n, RESULT = 0 (rule R160). -/
def fieldsOk (fields : List Nat) : Effects :=
  { result := 0#64
    count := BitVec.ofNat 7 fields.length
    out := some (Vector.ofFn fun i => word (fields.getD i.val 0 : Nat))
    str := none
    err := none
    failed := false }

/-- `fail E` of UNPK: every OUT 0, COUNT = 0, RESULT = 0 (rule R160, rule R183). -/
def fieldsFail (e : BitError) : Effects :=
  { fieldsOk [] with err := some e, failed := true }

/-- The outputs of STRF: the string in STR, the rest of STR 0, COUNT its length, RESULT the width (rule R170). -/
def stringOk (w : Width) (t : List Byte) : Effects :=
  { result := word w.bits
    count := BitVec.ofNat 7 t.length
    out := none
    str := some (Vector.ofFn fun p => t.getD p.val 0#8)
    err := none
    failed := false }

/-- "write outs" (rule R57): the output registers take what the command's rule gives them. -/
def writeOutputs (e : Effects) (s : State) : State :=
  { s with
    result := e.result
    count := e.count
    out := e.out.getD s.out
    str := e.str.getD s.str }

/-- The end of every completion (rule R57, rule R182): the DIAG event if there is an error, FAIL, ERR and LAST_OP, then
DONE = 1 and PEND = none. -/
def finish (op : BitVec 4) (err : Option BitError) (failed : Bool) (s : State) : State :=
  { s with
    diaglog := s.diaglog ++ diagEvents op err
    statusFail := failed
    statusErr := errCode err
    statusLastOp := op
    statusDone := true
    pend := none }

/-- The completion of a legal command (rule R57). -/
def retire (op : BitVec 4) (e : Effects) (s : State) : State :=
  finish op e.err e.failed (writeOutputs e s)

/-- The completion of an illegal command word (rule R182): no output and no input changes. -/
def illegalCommand (c : Word) (s : State) : State :=
  finish (c.extractLsb' 0 4) (some .illegalCommand) true s

/-- The text a platform's sink prints for DIAGLOG, event by event, through the open parameter DIAG_TEXT (rule R185). -/
def diagTexts (s : State) : List String := s.diaglog.map fun e => Config.diagText e.op e.err

end Sys2Proof.Machine
end

