-- ==== Sys2Proof/Machine/BitExtractor.lean ====
section
/-! DEFINITION. The bit extractor: GETB, SETB and CUTB (42_bit_extractor.md). -/

namespace Sys2Proof.Machine

open Sys2Proof

/-- The bit GETB returns (rule R121): bit index-1 on the integers, 0 where no such bit exists. -/
def getbBit (num index : Int) : Int :=
  if 1 ≤ index then zand (shr num (index - 1).toNat) 1 else 0

/-- EXEC of GETB (rule R121): a bad index fails under STRICT, else it is reported and the bit returned. -/
def getbEffects (strict tb : Bool) (num index : Int) : Effects :=
  match idxcheck num index tb with
  | none => scalarOk (word (getbBit num index))
  | some e => if strict then scalarFail e else scalarDiag e (word (getbBit num index))

/-- GETB (rule R121). -/
def execGetb (strict tb : Bool) (s : State) : Host.Outcome State Fault Refusal :=
  .next (retire 0x4#4 (getbEffects strict tb (opaInt s) (opbInt s)) s)

/-- The value SETB gives for a valid bit position k (rule R123): OR, XOR in the legacy clear, AND with the complement in
the corrected clear. -/
def setbValue (st andn : Bool) (num : Int) (k : Nat) : Int :=
  if st then zor num (shl 1 k)
  else if andn then zand num (znot (shl 1 k))
  else zxor num (shl 1 k)

/-- EXEC of SETB (rule R123). -/
def setbEffects (st tb andn : Bool) (num index : Int) : Effects :=
  match idxcheck num index tb with
  | some e => scalarFail e
  | none => scalarOk (word (setbValue st andn num (index - 1).toNat))

/-- SETB (rule R123). -/
def execSetb (st tb andn : Bool) (s : State) : Host.Outcome State Fault Refusal :=
  .next (retire 0x5#4 (setbEffects st tb andn (opaInt s) (opbInt s)) s)

/-- The value CUTB gives for a valid range (rule R126): the bits below `hi` (legacy), or bits lo-1 .. hi-1
right-aligned (TR). -/
def cutbValue (tr : Bool) (num : Int) (lo hi : Nat) : Int :=
  if tr then zand (shr num (lo - 1)) (lowMask (hi - lo + 1))
  else zand num (lowMask hi)

/-- EXEC of CUTB (rule R126). -/
def cutbEffects (tr : Bool) (num lo hi : Int) : Effects :=
  match cutcheck num lo hi with
  | some e => scalarFail e
  | none => scalarOk (word (cutbValue tr num lo.toNat hi.toNat))

/-- CUTB (rule R126). -/
def execCutb (tr : Bool) (s : State) : Host.Outcome State Fault Refusal :=
  .next (retire 0x6#4 (cutbEffects tr (opaInt s) (opbInt s) (opcInt s)) s)

end Sys2Proof.Machine
end

