-- ==== Sys2Proof/Machine/Classifier.lean ====
section
/-! DEFINITION. The width classifier: CLSV and CLSB (40_width_classifier.md). -/

namespace Sys2Proof.Machine

open Sys2Proof

/-- CLSV (rule R101): RESULT is the canonical width of sint(OPA), in bits. -/
def execClsv (s : State) : Host.Outcome State Fault Refusal :=
  .next (retire 0x1#4 (scalarOk (word (cw (opaInt s)).bits)) s)

/-- CLSB (rule R103): RESULT is the canonical width of the bit count sint(OPA). -/
def execClsb (s : State) : Host.Outcome State Fault Refusal :=
  .next (retire 0x2#4 (scalarOk (word (cb (opaInt s)).bits)) s)

end Sys2Proof.Machine
end

