-- ==== Sys2Proof/Machine/MaskGenerator.lean ====
section
/-! DEFINITION. The bit mask generator: MASK (41_bit_mask_generator.md). -/

namespace Sys2Proof.Machine

open Sys2Proof

/-- MASK (rule R111): RESULT is the mask of the width sint(OPA). -/
def execMask (s : State) : Host.Outcome State Fault Refusal :=
  .next (retire 0x3#4 (scalarOk (mk (opaInt s))) s)

end Sys2Proof.Machine
end

