-- ==== Sys2Proof/Machine/Packer.lean ====
section
/-! DEFINITION. The barrel-shifter packer: PACK (43_barrel_shifter_packer.md). -/

namespace Sys2Proof.Machine

open Sys2Proof

/-- An element as it is placed: masked to its field with FM, as it stands in the legacy mode (rule R151). -/
def packValue (fm : Bool) (v : Int) : Int :=
  if fm then zand v (lowMask (cw v).bits) else v

/-- The loop of PACK (rule R151) over the elements still to come, from the running bit count `total` and the
accumulator. The first failing element ends it: its tag is checked before its width. -/
def packLoop (fm : Bool) : List (Bool × Int) → Nat → Int → Except BitError Int
  | [], _, acc => .ok acc
  | (tag, v) :: rest, total, acc =>
    if tag then .error .nonIntegerElement
    else if 64 < total + (cw v).bits then .error .totalWidthExceeded
    else packLoop fm rest (total + (cw v).bits)
      (zor acc (shl (packValue fm v) (64 - (total + (cw v).bits))))

/-- EXEC of PACK (rule R151). -/
def packEffects (fm : Bool) (elems : List (Bool × Int)) : Effects :=
  match packLoop fm elems 0 0 with
  | .ok acc => scalarOk (word acc)
  | .error e => scalarFail e

/-- PACK (rule R151). -/
def execPack (fm : Bool) (cnt : BitVec 8) (s : State) : Host.Outcome State Fault Refusal :=
  .next (retire 0x7#4 (packEffects fm (packInputs s cnt.toNat)) s)

end Sys2Proof.Machine
end

