-- ==== Sys2Proof/Machine/Renderer.lean ====
section
/-! DEFINITION. The bitstring renderer: STRF (45_bitstring_renderer.md). -/

namespace Sys2Proof.Machine

open Sys2Proof

/-- The character of a bit: '1' is 0x31 and '0' is 0x30 (rule R173). -/
def digit (b : Bool) : Byte := if b then 0x31#8 else 0x30#8

/-- The string assembled least-significant bit first over the first `n` bits (rule R171): a separator follows each
complete group of 8. -/
def renderLsbFirst (num : Int) : Nat → List Byte
  | 0 => []
  | i + 1 =>
    renderLsbFirst num i ++ [digit (zand (shr num i) 1 == 1)] ++
      (if (i + 1) % 8 = 0 then [Config.strSep] else [])

/-- The rendered string, most-significant bit first (rule R171). -/
def render (num : Int) : List Byte := (renderLsbFirst num (cw num).bits).reverse

/-- STRF (rule R171). -/
def execStrf (s : State) : Host.Outcome State Fault Refusal :=
  .next (retire 0x9#4 (stringOk (cw (opaInt s)) (render (opaInt s))) s)

end Sys2Proof.Machine
end

