-- ==== Sys2Proof/Machine/Unpacker.lean ====
section
/-! DEFINITION. The barrel-shifter unpacker: UNPK and UNPK.DFLT (44_barrel_shifter_unpacker.md). -/

namespace Sys2Proof.Machine

open Sys2Proof

/-- One field (rule R161): the mask of the canonical width of the declared width `d`, aligned with the cursor before it
moves, and the field extracted with the cursor after it. -/
def unpackField (u cursor d : Nat) : Nat :=
  (u &&& (uint (mk (cb d).bits) >>> (64 - cursor))) >>> (cursor - d)

/-- The loop of UNPK (rule R161) over the entries still to come, from the running total and the cursor; it gives the
fields in layout order. The first failing entry ends it: its tag is checked before the total. -/
def unpackLoop (u : Nat) : List (Bool × Nat) → Nat → Nat → Except BitError (List Nat)
  | [], _, _ => .ok []
  | (tag, d) :: rest, total, cursor =>
    if tag then .error .nonIntegerElement
    else if 64 < total + d then .error .totalWidthExceeded
    else match unpackLoop u rest (total + d) (cursor - d) with
      | .error e => .error e
      | .ok fields => .ok (unpackField u cursor d :: fields)

/-- EXEC of UNPK (rule R161) on a layout, with the cursor at 64. -/
def unpackEffects (u : Nat) (entries : List (Bool × Nat)) : Effects :=
  match unpackLoop u entries 0 64 with
  | .ok fields => fieldsOk fields
  | .error e => fieldsFail e

/-- UNPK with M0 = 0: the layout is LAYOUT[0..CNT-1] (rule R161). -/
def execUnpk (cnt : BitVec 8) (s : State) : Host.Outcome State Fault Refusal :=
  .next (retire 0x8#4 (unpackEffects (uint s.opa) (layoutInputs s cnt.toNat)) s)

/-- UNPK with M0 = 1: the layout is DEFAULT_LAYOUT (rule R161). -/
def execUnpkDflt (s : State) : Host.Outcome State Fault Refusal :=
  .next (retire 0x8#4 (unpackEffects (uint s.opa) defaultInputs) s)

end Sys2Proof.Machine
end

