-- ==== Sys2Proof/Machine/Dispatch.lean ====
section
/-! DEFINITION. EXEC (20_memory.md rule R57): the completion of a legal command, one arm per command. -/

namespace Sys2Proof.Machine

open Sys2Proof

/-- The completion of a legal command (rule R57), selected by its opcode (rule R71). -/
def exec (i : Instr) (s : State) : Host.Outcome State Fault Refusal :=
  match i with
  | .clsv => Sys2Proof.Machine.execClsv s
  | .clsb => Sys2Proof.Machine.execClsb s
  | .mask => Sys2Proof.Machine.execMask s
  | .getb strict tb => Sys2Proof.Machine.execGetb strict tb s
  | .setb st tb andn => Sys2Proof.Machine.execSetb st tb andn s
  | .cutb tr => Sys2Proof.Machine.execCutb tr s
  | .pack fm cnt => Sys2Proof.Machine.execPack fm cnt s
  | .unpk cnt => Sys2Proof.Machine.execUnpk cnt s
  | .unpkDflt => Sys2Proof.Machine.execUnpkDflt s
  | .strf => Sys2Proof.Machine.execStrf s

end Sys2Proof.Machine
end

