-- ==== Sys2Proof/Machine/Window.lean ====
section
/-! DEFINITION. The register window (10_state.md rule R21), the host accesses (20_memory.md rules R52 to R56), the reset input
(70_reset_and_hazards.md rule R200), and which agent acts next (rule R57, rule R59). -/

namespace Sys2Proof.Machine

open Sys2Proof

/-- The registers of the window (rule R21). -/
inductive WinReg where
  | id
  | cmd
  | status
  | opa
  | opb
  | opc
  | result
  | count
  | elemNi
  | layoutNi
  | elem (i : Fin 16)
  | layoutW (j : Fin 8)
  | strW (j : Fin 9)
  | out (i : Fin 64)
  deriving DecidableEq, Repr

/-- The registers below offset 0x080, each at its own offset (rule R21). -/
def scalarRegAt (off : Nat) : Option WinReg :=
  [(0x000, .id), (0x008, .cmd), (0x010, .status), (0x018, .opa), (0x020, .opb), (0x028, .opc), (0x030, .result),
    (0x038, .count), (0x040, .elemNi), (0x048, .layoutNi)].lookup off

/-- The register at an 8-aligned window offset (rule R21); none where the map names none (RAZ/WI). -/
def regAt (off : Nat) : Option WinReg :=
  if off < 0x080 then scalarRegAt off
  else if h : off < 0x100 then some (.elem ⟨(off - 0x080) / 8, by omega⟩)
  else if h : off < 0x140 then some (.layoutW ⟨(off - 0x100) / 8, by omega⟩)
  else if h : off < 0x188 then some (.strW ⟨(off - 0x140) / 8, by omega⟩)
  else if off < 0x200 then none
  else if h : off < 0x400 then some (.out ⟨(off - 0x200) / 8, by omega⟩)
  else none

/-- The offset of a register (rule R21). -/
def WinReg.offset : WinReg → Nat
  | .id => 0x000
  | .cmd => 0x008
  | .status => 0x010
  | .opa => 0x018
  | .opb => 0x020
  | .opc => 0x028
  | .result => 0x030
  | .count => 0x038
  | .elemNi => 0x040
  | .layoutNi => 0x048
  | .elem i => 0x080 + 8 * i
  | .layoutW j => 0x100 + 8 * j
  | .strW j => 0x140 + 8 * j
  | .out i => 0x200 + 8 * i

/-- The registers whose writes are refused while BUSY = 1 (rule R56): CMD and every RW register. -/
def WinReg.frozenWhileBusy : WinReg → Bool
  | .cmd => true
  | .opa => true
  | .opb => true
  | .opc => true
  | .elemNi => true
  | .layoutNi => true
  | .elem _ => true
  | .layoutW _ => true
  | .id => false
  | .status => false
  | .result => false
  | .count => false
  | .strW _ => false
  | .out _ => false

/-- Byte k of a word: bits 8k+7 : 8k (rule R53). -/
def byteOf (v : Word) (k : Nat) : Byte := v.extractLsb' (8 * k) 8

/-- A word from eight bytes, byte 0 the least significant (rule R53). -/
def wordOfBytes (b : Nat → Byte) : Word :=
  b 7 ++ b 6 ++ b 5 ++ b 4 ++ b 3 ++ b 2 ++ b 1 ++ b 0

/-- The value a host reads from a register (rule R52, rules R22 to R33). -/
def readReg (s : State) : WinReg → Word
  | .id => Config.idValue
  | .cmd => 0#64
  | .status => statusWord s
  | .opa => s.opa
  | .opb => s.opb
  | .opc => s.opc
  | .result => s.result
  | .count => s.count.setWidth 64
  | .elemNi => s.elemNi.setWidth 64
  | .layoutNi => s.layoutNi
  | .elem i => s.elem[i]
  | .layoutW j => wordOfBytes fun k => s.layout.getD (8 * j + k) 0#8
  | .strW j => wordOfBytes fun k => s.str.getD (8 * j + k) 0#8
  | .out i => s.out[i]

/-- A CMD write made while idle (rule R55): PEND takes the word and DONE is cleared. The model draws the command's latency
(assumption log 2). -/
def accept (c : Word) (s : State) : State :=
  { s with
    pend := some c
    statusDone := false
    lat := Config.latency s.draws
    draws := s.draws + 1 }

/-- The entries of LAYOUT after a write of LAYOUT_W[j]: its eight entries from the word's bytes (rule R31). -/
def layoutWrite (l : Vector Byte 64) (j : Fin 8) (v : Word) : Vector Byte 64 :=
  Vector.ofFn fun i => if i.val / 8 = j.val then byteOf v (i.val % 8) else l[i]

/-- The write effect of a register (rule R52): RW takes the value, RO ignores it, STATUS is RW1C, CMD issues. -/
def writeReg (r : WinReg) (v : Word) (s : State) : State :=
  match r with
  | .id => s
  | .cmd => accept v s
  | .status => statusWrite v s
  | .opa => { s with opa := v }
  | .opb => { s with opb := v }
  | .opc => { s with opc := v }
  | .result => s
  | .count => s
  | .elemNi => { s with elemNi := v.setWidth 16 }
  | .layoutNi => { s with layoutNi := v }
  | .elem i => { s with elem := s.elem.set i v }
  | .layoutW j => { s with layout := layoutWrite s.layout j v }
  | .strW _ => s
  | .out _ => s

/-- The only admitted access: 8 bytes at a multiple of 8 (rule R54; sizes the rule does not list, assumption log 7). -/
def admitted (off size : Nat) : Bool := size == 8 && off % 8 == 0

/-- `MemRead(off, size)` (rule R52): 0 for an access that is not admitted, an unmapped offset (rule R54, rule R21),
or while reset is asserted (rule R200; for ID, assumption log 15). -/
def memRead (s : State) (off size : Nat) : Word :=
  if s.inReset then 0#64
  else if admitted off size then
    match regAt off with
    | none => 0#64
    | some r => readReg s r
  else 0#64

/-- A write refused because BUSY = 1 (rule R56). -/
def refuseWrite (s : State) : State := { s with statusProto := true }

/-- `MemWrite(off, size, v)` (rule R52): ignored while reset is asserted (rule R200), where the access is not admitted (rule R54)
and at an unmapped offset; refused while busy at the registers of rule R56. -/
def memWrite (off size : Nat) (v : Word) (s : State) : State :=
  if s.inReset then s
  else if admitted off size then
    match regAt off with
    | none => s
    | some r => if busy s && r.frozenWhileBusy then refuseWrite s else writeReg r v s
  else s

/-- The block at its reset values (rule R200). DIAGLOG is a history and stays; the host's side is not the
block's and stays (assumption log 3). -/
def resetBlock (level : Bool) (s : State) : State :=
  { State.reset with
    diaglog := s.diaglog
    inReset := level
    host := s.host
    reads := s.reads
    draws := s.draws }

/-- The reset input is asserted (rule R200). -/
def assertReset (s : State) : State := resetBlock true s

/-- The reset input is released: the block is at its reset values (rule R200). Releasing an input that is not asserted
changes nothing. -/
def releaseReset (s : State) : State := if s.inReset then resetBlock false s else s

/-- The window offset of a platform address (rule R51); none outside the window. -/
def windowOffset (addr : Nat) : Option Nat :=
  if Config.base ≤ addr ∧ addr < Config.base + Config.windowBytes then some (addr - Config.base) else none

/-- The next host access arrives: it leaves the queue, and one access fewer precedes a pending completion. -/
def arrive (rest : List HostOp) (s : State) : State := { s with host := rest, lat := s.lat - 1 }

/-- A value returned to the host. -/
def returnValue (v : Word) (s : State) : State := { s with reads := s.reads ++ [v] }

/-- One host step (rule R52, rule R63): the access `a` takes effect completely, `rest` is still to come. -/
def hostStep (a : HostOp) (rest : List HostOp) (s : State) : Host.Outcome State Fault Refusal :=
  match a with
  | .read addr size =>
    match windowOffset addr with
    | none => .fault .outsideWindow
    | some off => .next (returnValue (memRead s off size) (arrive rest s))
  | .write addr size v =>
    match windowOffset addr with
    | none => .fault .outsideWindow
    | some off => .next (memWrite off size v (arrive rest s))
  | .wait =>
    let v := memRead s 0x010 8
    .next (returnValue v (arrive (if v.getLsbD 0 then .wait :: rest else rest) s))
  | .assertReset => .next (assertReset (arrive rest s))
  | .releaseReset => .next (releaseReset (arrive rest s))

/-- Which agent acts next. -/
inductive Turn where
  /-- The engine completes the pending command word. -/
  | engine (c : Word)
  /-- The host's next access arrives. -/
  | host (a : HostOp) (rest : List HostOp)
  /-- Nothing is pending and nothing is asked. -/
  | idle
  deriving DecidableEq, Repr

/-- The agent whose step is next (rule R57, rule R59): the engine's step is enabled exactly when a command is pending; it comes
once no host access is left or `lat` says none precedes it. -/
def turn (s : State) : Turn :=
  match s.pend, s.host with
  | some c, [] => .engine c
  | some c, a :: rest => if s.lat = 0 then .engine c else .host a rest
  | none, a :: rest => .host a rest
  | none, [] => .idle

/-- PEND holds the word, and the engine's step is the next one. -/
def pendNow (c : Word) (s : State) : State := { s with pend := some c, lat := 0 }

end Sys2Proof.Machine
end

