-- ==== Sys2Proof/Machine/Step.lean ====
section
/-! DEFINITION. One step of the machine: the engine's completion or the arrival of a host access (00_scope.md rule R3). -/

namespace Sys2Proof.Machine

open Sys2Proof

/-- One step. The engine completes the pending word: the command it decodes to, or the illegal-command effect (rule R57).
A host access takes effect (rule R63). An idle block with nothing asked of it stays as it is (assumption log 10). -/
def step (s : State) : Host.Outcome State Fault Refusal :=
  match turn s with
  | .engine c =>
    match decode c with
    | .ok i => exec i s
    | .error _ => .next (illegalCommand c s)
  | .host a rest => hostStep a rest s
  | .idle => .next s

/-- The word `w` of `nbits` bits as the pending command, so that the very next step completes it: what an accepted CMD write
leaves in PEND (rule R55), with no host access before the completion (assumption log 5). -/
def State.withFetchWord (s : State) (nbits w : Nat) : State :=
  pendNow (BitVec.ofNat 64 (w % 2 ^ nbits)) s

end Sys2Proof.Machine
end

