-- ==== Sys2Proof/Safety.lean ====
section
/-! DEFINITION. The terms the claims use: legality as rule R74 writes it, the states a completion leaves, the running
totals of PACK and UNPK, the closed form of a field, and the invariant of the legal values (10_state.md rule R24). -/

namespace Sys2Proof.Machine

open Sys2Proof

/-! ### Legality (rule R74) -/

/-- `legal(c)`, clause by clause (rule R74). -/
def Legal (c : Word) : Prop :=
  c.extractLsb' 16 48 = 0#48 ∧ c.getLsbD 7 = false ∧
    ((c.extractLsb' 0 4 = 0x1#4 ∧ c.extractLsb' 4 12 = 0#12) ∨
     (c.extractLsb' 0 4 = 0x2#4 ∧ c.extractLsb' 4 12 = 0#12) ∨
     (c.extractLsb' 0 4 = 0x3#4 ∧ c.extractLsb' 4 12 = 0#12) ∨
     (c.extractLsb' 0 4 = 0x4#4 ∧ c.extractLsb' 6 10 = 0#10) ∨
     (c.extractLsb' 0 4 = 0x5#4 ∧ c.extractLsb' 7 9 = 0#9) ∨
     (c.extractLsb' 0 4 = 0x6#4 ∧ c.extractLsb' 5 11 = 0#11) ∨
     (c.extractLsb' 0 4 = 0x7#4 ∧ c.extractLsb' 5 2 = 0#2 ∧ (c.extractLsb' 8 8).toNat ≤ 16) ∨
     (c.extractLsb' 0 4 = 0x8#4 ∧ c.extractLsb' 5 2 = 0#2 ∧ (c.extractLsb' 8 8).toNat ≤ 64 ∧
        (c.getLsbD 4 = false ∨ c.extractLsb' 8 8 = 0#8)) ∨
     (c.extractLsb' 0 4 = 0x9#4 ∧ c.extractLsb' 4 12 = 0#12))

/-! ### What a completion leaves, written from rule R57 and not through the model's operations -/

/-- After a success of opcode `op` with RESULT = r and COUNT = 0: FAIL = 0, ERR = 0, LAST_OP = op, DONE = 1, nothing
pending, no event, and everything else unchanged (rule R57). -/
def okAfter (s : State) (op : BitVec 4) (r : Word) : State :=
  { s with
    result := r
    count := 0#7
    statusFail := false
    statusErr := 0#4
    statusLastOp := op
    statusDone := true
    pend := none }

/-- After a completion of opcode `op` with error code `err`, RESULT = r and COUNT = 0: one event, and FAIL as
given (rule R183, rule R184). -/
def errAfter (s : State) (op : BitVec 4) (r : Word) (err : BitVec 4) (failed : Bool) : State :=
  { s with
    result := r
    count := 0#7
    diaglog := s.diaglog ++ [DiagEvent.mk op err]
    statusFail := failed
    statusErr := err
    statusLastOp := op
    statusDone := true
    pend := none }

/-- The engine's step is the next one and completes the word `c`: it is pending, and no host access precedes
the completion (rule R57, assumption log 2). -/
def EngineNext (s : State) (c : Word) : Prop :=
  s.pend = some c ∧ (s.lat = 0 ∨ s.host = [])

/-- The host's access `a` is the next step: it heads the queue, and no completion comes before it (rule R63, assumption
log 2). -/
def HostNext (s : State) (a : HostOp) (rest : List HostOp) : Prop :=
  s.host = a :: rest ∧ (s.pend = none ∨ s.lat ≠ 0)

/-- The offsets of the RW registers of the window (rule R21). -/
def InputOffset (off : Nat) : Prop :=
  off = 0x018 ∨ off = 0x020 ∨ off = 0x028 ∨ off = 0x040 ∨ off = 0x048 ∨
    (0x080 ≤ off ∧ off < 0x140 ∧ off % 8 = 0)

/-- The 8-aligned offsets that the map does not name (rule R21). -/
def UnmappedOffset (off : Nat) : Prop :=
  off % 8 = 0 ∧ ((0x050 ≤ off ∧ off < 0x080) ∨ (0x188 ≤ off ∧ off < 0x200))

/-- The word whose low n bits are 1, for n ≤ 64. -/
def lowOnes (n : Nat) : Word := BitVec.allOnes 64 >>> (64 - n)

/-! ### Sequences -/

/-- w_i, the canonical width of pack element i (rule R150). -/
def packWidth (s : State) (i : Nat) : Nat := (cw (elemAt s i).2).bits

/-- The running total of the first n elements: T of rule R150 after n elements. -/
def packTotal (s : State) (n : Nat) : Nat := ((List.range n).map (packWidth s)).sum

/-- The running total of the first n layout entries (rule R161). -/
def layoutTotal (s : State) (n : Nat) : Nat := ((List.range n).map fun i => (layoutAt s i).2).sum

/-- The closed form of the field of declared width `d` below the cursor `c` (rule R163). -/
def closedField (u c d : Nat) : Nat :=
  if d ≤ 8 ∨ d = 16 ∨ d = 32 ∨ d = 64 then u / 2 ^ (c - d) % 2 ^ d
  else u / 2 ^ (c - 8) % 2 ^ 8 * 2 ^ (d - 8)

/-! ### Inputs, outputs, runs -/

/-- Two states agree on every input register and buffer (rule R14, rule R57). -/
def SameInputs (s t : State) : Prop :=
  s.opa = t.opa ∧ s.opb = t.opb ∧ s.opc = t.opc ∧ s.elemNi = t.elemNi ∧ s.layoutNi = t.layoutNi ∧
    s.elem = t.elem ∧ s.layout = t.layout

/-- A host access that the block answers without stopping and without a reset: inside the window, or the pseudo `wait`. -/
def HostOp.Ordinary : HostOp → Prop
  | .read addr _ => Config.base ≤ addr ∧ addr < Config.base + 0x400
  | .write addr _ _ => Config.base ≤ addr ∧ addr < Config.base + 0x400
  | .wait => True
  | .assertReset => False
  | .releaseReset => False

/-- The final states of a run (rule R205): the host has made its last access and PEND = none. -/
def State.Final (s : State) : Prop := s.host = [] ∧ s.pend = none

/-- The legal values of the status fields (rule R24), of COUNT (rule R27) and of DIAGLOG (rule R180), and
the block at its reset values while reset is asserted (rule R200). -/
structure LegalState (s : State) : Prop where
  /-- ERR is produced only in 0..8. -/
  err_le : s.statusErr.toNat ≤ 8
  /-- FAIL = 1 implies ERR ≠ 0. -/
  fail_err : s.statusFail = true → s.statusErr ≠ 0#4
  /-- ERR ≠ 0 with FAIL = 0 happens only after a GETB with an invalid index. -/
  report : s.statusErr ≠ 0#4 → s.statusFail = false →
    s.statusLastOp = 0x4#4 ∧ (s.statusErr = 1#4 ∨ s.statusErr = 2#4)
  /-- BUSY = 1 implies DONE = 0. -/
  busy_done : s.pend.isSome = true → s.statusDone = false
  /-- COUNT holds a value in 0..72. -/
  count_le : s.count.toNat ≤ 72
  /-- Every event carries a code of rule R180. -/
  events : ∀ e ∈ s.diaglog, 1 ≤ e.err.toNat ∧ e.err.toNat ≤ 8
  /-- While reset is asserted the block is at its reset values. -/
  reset_held : s.inReset = true → resetBlock true s = s

end Sys2Proof.Machine
end

