-- ==== Sys2Proof/Certificates/Slice0/Obligations.lean ====
section
/-! DEFINITION. The statements for the provers. Each docstring names the rule of spec/ it formalises, and the assumption
log's entry where a statement rests on a choice of the model. -/

open Sys2Proof Sys2Proof.Machine

/-! ### The command word -/

/-- Decode and encode agree: every well-formed command, with every immediate at every value, is read back from
its word (rules R70 to R73, R78). -/
def Obligations.DecodeEncodeRoundTrip : Prop :=
  ∀ i : Instr, i.wellFormed = true → decode (encode i) = .ok i

/-- The other direction: a word that decodes has one command, well formed, whose word it is (rules R70 to R74, R78). -/
def Obligations.EncodeRecoversDecodedWord : Prop :=
  ∀ (c : Word) (i : Instr), decode c = .ok i → i.wellFormed = true ∧ encode i = c

/-- The decoder accepts exactly the words that rule R74 calls legal. -/
def Obligations.DecodeAcceptsExactlyLegalWords : Prop :=
  ∀ c : Word, (∃ i, decode c = .ok i) ↔ Legal c

/-- A few words written out from rule R70's layout decode to the commands they stand for (rule R78). -/
def Obligations.DecodeReadsWordsOfTheSyntaxTable : Prop :=
  decode 0x1#64 = .ok .clsv ∧ decode 0x2#64 = .ok .clsb ∧ decode 0x3#64 = .ok .mask ∧
  decode 0x14#64 = .ok (.getb true false) ∧ decode 0x24#64 = .ok (.getb false true) ∧
  decode 0x15#64 = .ok (.setb true false false) ∧ decode 0x45#64 = .ok (.setb false false true) ∧
  decode 0x16#64 = .ok (.cutb true) ∧ decode 0x317#64 = .ok (.pack true 3#8) ∧
  decode 0x308#64 = .ok (.unpk 3#8) ∧ decode 0x18#64 = .ok .unpkDflt ∧ decode 0x9#64 = .ok .strf

/-- The opcode of the decoded command is bits 3:0 of its word (rule R70, rule R71). -/
def Obligations.DecodedOpcodeIsLowNibble : Prop :=
  ∀ (c : Word) (i : Instr), decode c = .ok i → i.opcode = c.extractLsb' 0 4

/-! ### The engine's step -/

/-- A step runs the decoded command: when the engine's step is next and the pending word decodes to a command, the step is the
execution of that command (rule R57). -/
def Obligations.StepRunsDecodedCommand : Prop :=
  ∀ (s : State) (c : Word) (i : Instr), EngineNext s c → decode c = .ok i → step s = exec i s

/-- An illegal word completes with FAIL = 1, ERR = 8, LAST_OP = c[3:0] and one event, and changes nothing else (rule R182). -/
def Obligations.IllegalWordCompletesWithCodeEight : Prop :=
  ∀ (s : State) (c : Word), EngineNext s c → ¬Legal c →
    step s = .next { s with
      diaglog := s.diaglog ++ [DiagEvent.mk (c.extractLsb' 0 4) 8#4]
      statusFail := true
      statusErr := 8#4
      statusLastOp := c.extractLsb' 0 4
      statusDone := true
      pend := none }

/-- The word that withFetchWord places is completed by the very next step: the model's way to run one command
(assumption log 5). -/
def Obligations.PlacedWordRunsNext : Prop :=
  ∀ (i : Instr) (s : State), i.wellFormed = true →
    step (s.withFetchWord 64 (encode i).toNat) = exec i (s.withFetchWord 64 (encode i).toNat)

/-! ### The commands, each with the whole state it leaves -/

/-- CLSV: RESULT is the smallest canonical width whose signed range contains sint(OPA) (rule R100, rule R101). -/
def Obligations.ClsvGivesSmallestCanonicalWidth : Prop :=
  (∀ c : Word, decode c = .ok .clsv ↔ c = 0x1#64) ∧
  ∀ s : State, ∃ w : Nat, w ∈ [8, 16, 32, 64] ∧
    (-2 ^ (w - 1) ≤ s.opa.toInt ∧ s.opa.toInt ≤ 2 ^ (w - 1) - 1) ∧
    (∀ w' ∈ [8, 16, 32, 64], -2 ^ (w' - 1) ≤ s.opa.toInt → s.opa.toInt ≤ 2 ^ (w' - 1) - 1 → w ≤ w') ∧
    exec .clsv s = .next (okAfter s 0x1#4 (BitVec.ofNat 64 w))

/-- CLSB: RESULT is OPA where OPA is 8, 16, 32 or 64, and 8 otherwise (rule R102, rule R103). -/
def Obligations.ClsbKeepsCanonicalCountsElseEight : Prop :=
  (∀ c : Word, decode c = .ok .clsb ↔ c = 0x2#64) ∧
  ∀ s : State, exec .clsb s = .next (okAfter s 0x2#4
    (if s.opa = 8#64 ∨ s.opa = 16#64 ∨ s.opa = 32#64 ∨ s.opa = 64#64 then s.opa else 8#64))

/-- MASK: RESULT has ones exactly in bits [64-w, 64) for a canonical w, and every bit one otherwise (rule R110, rule R111). -/
def Obligations.MaskSetsTheHighBits : Prop :=
  (∀ c : Word, decode c = .ok .mask ↔ c = 0x3#64) ∧
  ∀ s : State, ∃ m : Word,
    (∀ b < 64, m.getLsbD b =
      if s.opa = 8#64 ∨ s.opa = 16#64 ∨ s.opa = 32#64 ∨ s.opa = 64#64 then decide (64 - s.opa.toNat ≤ b)
      else true) ∧
    exec .mask s = .next (okAfter s 0x3#4 m)

/-- GETB: the bit for a valid index; on an invalid one the bit with a report, or the failure under STRICT (rule R120, rule R121). -/
def Obligations.GetbReadsReportsOrFails : Prop :=
  (∀ (c : Word) (strict tb : Bool), decode c = .ok (.getb strict tb) ↔
    c = BitVec.ofNat 64 (0x04 + 0x10 * strict.toNat + 0x20 * tb.toNat)) ∧
  ∀ (strict tb : Bool) (s : State),
    let index := s.opb.toInt
    let w : Int := (cw s.opa.toInt).bits
    let bound : Int := if tb then w else 8 * w
    let value : Word := if 1 ≤ index then BitVec.ofInt 64 (s.opa.toInt / 2 ^ (index - 1).toNat % 2) else 0#64
    let err : BitVec 4 := if index > bound then 1#4 else 2#4
    exec (.getb strict tb) s = .next (
      if 1 ≤ index ∧ index ≤ bound then okAfter s 0x4#4 value
      else if strict then errAfter s 0x4#4 all1 err true
      else errAfter s 0x4#4 value err false)

/-- GETB without STRICT at an index of 64 or more reads the sign of OPA: the spec's own inference, the first corner case
of rule R121, "they read the sign". -/
def Obligations.GetbAboveTheWordReadsTheSign : Prop :=
  ∀ (tb : Bool) (s : State), 64 ≤ s.opb.toInt →
    ∃ t, exec (.getb false tb) s = .next t ∧ t.statusFail = false ∧
      t.result = if s.opa.msb then 1#64 else 0#64

/-- SETB: OR, XOR or AND-with-complement at bit index-1 of the word; an invalid index fails (rule R120, rule R123). -/
def Obligations.SetbSetsTogglesClearsOrFails : Prop :=
  (∀ (c : Word) (st tb andn : Bool), decode c = .ok (.setb st tb andn) ↔
    c = BitVec.ofNat 64 (0x05 + 0x10 * st.toNat + 0x20 * tb.toNat + 0x40 * andn.toNat)) ∧
  ∀ (st tb andn : Bool) (s : State),
    let index := s.opb.toInt
    let w : Int := (cw s.opa.toInt).bits
    let bound : Int := if tb then w else 8 * w
    let bit : Word := 1#64 <<< (index - 1).toNat
    exec (.setb st tb andn) s = .next (
      if index > bound then errAfter s 0x5#4 all1 1#4 true
      else if index ≤ 0 then errAfter s 0x5#4 all1 2#4 true
      else okAfter s 0x5#4
        (if st then s.opa ||| bit else if andn then s.opa &&& ~~~bit else s.opa ^^^ bit))

/-- CUTB: the three checks in their order, then the low bits, or the range right-aligned under TR
(rule R125, rule R126). -/
def Obligations.CutbChecksThenExtracts : Prop :=
  (∀ (c : Word) (tr : Bool), decode c = .ok (.cutb tr) ↔ c = BitVec.ofNat 64 (0x06 + 0x10 * tr.toNat)) ∧
  ∀ (tr : Bool) (s : State),
    let lo := s.opb.toInt
    let hi := s.opc.toInt
    let w : Int := (cw s.opa.toInt).bits
    exec (.cutb tr) s = .next (
      if lo > w ∨ hi > w then errAfter s 0x6#4 all1 3#4 true
      else if lo ≤ 0 ∨ hi ≤ 0 then errAfter s 0x6#4 all1 4#4 true
      else if lo ≥ hi then errAfter s 0x6#4 all1 5#4 true
      else okAfter s 0x6#4
        (if tr then (s.opa >>> (lo - 1).toNat) &&& lowOnes (hi - lo + 1).toNat
         else s.opa &&& lowOnes hi.toNat))

/-- PACK succeeds where no element is tagged and the total is at most 64, and then bit b of RESULT is the OR of the placed
elements' bits: element i stands at shift 64 - T_i, with FM only in its own field, and no other bit is set (rule R150,
rule R151). -/
def Obligations.PackPlacesEachElement : Prop :=
  ∀ (fm : Bool) (cnt : BitVec 8) (s : State),
    (∀ i < cnt.toNat, s.elemNi.getLsbD i = false) → packTotal s cnt.toNat ≤ 64 →
    ∃ r : Word, exec (.pack fm cnt) s = .next (okAfter s 0x7#4 r) ∧
      ∀ b < 64, (r.getLsbD b = true ↔ ∃ i < cnt.toNat,
        64 - packTotal s (i + 1) ≤ b ∧
        (fm = true → b < 64 - packTotal s (i + 1) + packWidth s i) ∧
        zbit (elemAt s i).2 (b - (64 - packTotal s (i + 1))) = true)

/-- PACK fails at the first element that is tagged or takes the total above 64, the tag checked first, with RESULT = ALL1 and
one event (rule R151, rule R183, rule R189). -/
def Obligations.PackFailsAtFirstBadElement : Prop :=
  ∀ (fm : Bool) (cnt : BitVec 8) (s : State) (j : Nat) (err : BitVec 4),
    j < cnt.toNat → (∀ i < j, s.elemNi.getLsbD i = false) → packTotal s j ≤ 64 →
    ((s.elemNi.getLsbD j = true ∧ err = 6#4) ∨
      (s.elemNi.getLsbD j = false ∧ 64 < packTotal s (j + 1) ∧ err = 7#4)) →
    exec (.pack fm cnt) s = .next (errAfter s 0x7#4 all1 err true)

/-- PACK of the empty sequence gives 0 and succeeds: rule R151 with N = 0, the spec's own inference "N = 0 gives RESULT = 0 with
FAIL = 0 and ERR = 0" (rule R152). -/
def Obligations.PackOfNothingIsZero : Prop :=
  ∀ (fm : Bool) (s : State), exec (.pack fm 0#8) s = .next (okAfter s 0x7#4 0#64)

/-- Nine or more elements always fail, with the outcome of the first nine: the spec's own inference "Every sequence of nine
or more elements therefore fails" (rule R153, from rule R151 and rule R100). -/
def Obligations.PackOfNineOrMoreFails : Prop :=
  ∀ (fm : Bool) (cnt : BitVec 8) (s : State), 9 ≤ cnt.toNat →
    exec (.pack fm cnt) s = exec (.pack fm 9#8) s ∧
    ∃ err : BitVec 4, (err = 6#4 ∨ err = 7#4) ∧
      exec (.pack fm cnt) s = .next (errAfter s 0x7#4 all1 err true)

/-- UNPK succeeds where no entry is tagged and the total is at most 64; then OUT is 0 from CNT on, COUNT = CNT and RESULT = 0
(rule R160, rule R161), and field i has the closed form that the spec infers, "Closed form of each field" (rule R163). -/
def Obligations.UnpkExtractsClosedFormFields : Prop :=
  ∀ (cnt : BitVec 8) (s : State), cnt.toNat ≤ 64 →
    (∀ i < cnt.toNat, s.layoutNi.getLsbD i = false) → layoutTotal s cnt.toNat ≤ 64 →
    ∃ o : Vector Word 64,
      (∀ (i : Nat) (h : i < 64), o[i] =
        if i < cnt.toNat then
          BitVec.ofNat 64 (closedField s.opa.toNat (64 - layoutTotal s i) s.layout[i].toNat)
        else 0#64) ∧
      exec (.unpk cnt) s = .next { okAfter s 0x8#4 0#64 with count := BitVec.ofNat 7 cnt.toNat, out := o }

/-- UNPK fails at the first entry that is tagged or takes the total above 64, the tag checked first, with OUT, COUNT and RESULT
all 0 and one event (rule R160, rule R161, rule R183, rule R189). -/
def Obligations.UnpkFailsAtFirstBadEntry : Prop :=
  ∀ (cnt : BitVec 8) (s : State) (j : Nat) (err : BitVec 4),
    j < cnt.toNat → cnt.toNat ≤ 64 → (∀ i < j, s.layoutNi.getLsbD i = false) → layoutTotal s j ≤ 64 →
    ((s.layoutNi.getLsbD j = true ∧ err = 6#4) ∨
      (s.layoutNi.getLsbD j = false ∧ 64 < layoutTotal s (j + 1) ∧ err = 7#4)) →
    exec (.unpk cnt) s = .next
      { errAfter s 0x8#4 0#64 err true with out := Vector.replicate 64 0#64 }

/-- UNPK of the empty layout succeeds with COUNT = 0 and every OUT = 0: rule R160 and rule R161 with N = 0, the spec's own
inference "DFLT = 0 with N = 0 succeeds" (rule R162). -/
def Obligations.UnpkOfEmptyLayoutSucceeds : Prop :=
  ∀ s : State, exec (.unpk 0#8) s = .next
    { okAfter s 0x8#4 0#64 with out := Vector.replicate 64 0#64 }

/-- UNPK.DFLT splits OPA into its eight bytes, the most significant first (rule R160, and rule R161 with the layout of rule R6). -/
def Obligations.UnpkDfltSplitsIntoBytes : Prop :=
  (∀ c : Word, decode c = .ok .unpkDflt ↔ c = 0x18#64) ∧
  ∀ s : State, ∃ o : Vector Word 64,
    (∀ (i : Nat) (h : i < 64), o[i] =
      if i < 8 then (s.opa >>> (56 - 8 * i)) &&& 0xFF#64 else 0#64) ∧
    exec .unpkDflt s = .next { okAfter s 0x8#4 0#64 with count := 8#7, out := o }

/-- STRF: the string with the character codes of rule R173, zeros after it, COUNT its length, RESULT the width (rule R170, rule R171);
which bit stands at which place is the spec's own inference "Layout of the string" (rule R172). -/
def Obligations.StrfRendersTheBitPattern : Prop :=
  (∀ c : Word, decode c = .ok .strf ↔ c = 0x9#64) ∧
  ∀ s : State,
    let w := (cw s.opa.toInt).bits
    let n := w + w / 8
    ∃ v : Vector Byte 72,
      (∀ (p : Nat) (h : p < 72), v[p] =
        if n ≤ p then 0#8
        else if p % 9 = 0 then Config.strSep
        else if s.opa.getLsbD (w - 1 - (8 * (p / 9) + p % 9 - 1)) then 0x31#8 else 0x30#8) ∧
      exec .strf s = .next
        { okAfter s 0x9#4 (BitVec.ofNat 64 w) with count := BitVec.ofNat 7 n, str := v }

/-- The unpacker undoes the packer: after a successful PACK with FM, or of elements that are not negative, UNPK of
RESULT by the elements' own widths gives each element back modulo its width, a non-negative one as it was: the spec's
own inference in rule R154, "returns v_0 .. v_{n−1}", from rule R151 and rule R161. -/
def Obligations.UnpackUndoesPack : Prop :=
  ∀ (fm : Bool) (cnt : BitVec 8) (s t u : State),
    exec (.pack fm cnt) s = .next t → t.statusFail = false →
    (fm = true ∨ ∀ i < cnt.toNat, 0 ≤ (elemAt s i).2) →
    u.opa = t.result →
    (∀ i < cnt.toNat, u.layoutNi.getLsbD i = false ∧ (layoutAt u i).2 = packWidth s i) →
    ∃ u' : State, exec (.unpk cnt) u = .next u' ∧ u'.statusFail = false ∧ u'.count.toNat = cnt.toNat ∧
      ∀ (i : Nat) (h : i < 64), i < cnt.toNat →
        (u'.out[i].toNat : Int) = (elemAt s i).2 % 2 ^ packWidth s i ∧
        (0 ≤ (elemAt s i).2 → u'.out[i].toInt = (elemAt s i).2)

/-- After SETB.s succeeds at an index up to 64, GETB without STRICT reads a 1 there: the first of the spec's "Derived laws"
(rule R127), from rule R121 and rule R123. -/
def Obligations.GetbReadsTheBitSetbSet : Prop :=
  ∀ (tb andn tb' : Bool) (s t u : State),
    exec (.setb true tb andn) s = .next t → t.statusFail = false → s.opb.toInt ≤ 64 →
    u.opa = t.result → u.opb = s.opb →
    ∃ u', exec (.getb false tb') u = .next u' ∧ u'.result = 1#64

/-- Two legacy clears at the same valid index restore the word: of the spec's "Derived laws" (rule R127), from rule R123. -/
def Obligations.LegacyClearTwiceRestores : Prop :=
  ∀ s t u : State,
    exec (.setb false false false) s = .next t → t.statusFail = false → u.opa = t.result → u.opb = s.opb →
    ∃ u', exec (.setb false false false) u = .next u' ∧ u'.statusFail = false ∧ u'.result = s.opa

/-- The corrected clear is idempotent: of the spec's "Derived laws" (rule R127), from rule R123. -/
def Obligations.CorrectedClearIsIdempotent : Prop :=
  ∀ s t u : State,
    exec (.setb false false true) s = .next t → t.statusFail = false → u.opa = t.result → u.opb = s.opb →
    ∃ u', exec (.setb false false true) u = .next u' ∧ u'.statusFail = false ∧ u'.result = t.result

/-- Legacy CUTB does not depend on `from` once the check passes, and the true range from 1 equals legacy: of the spec's "Derived
laws" (rule R127), from rule R126. -/
def Obligations.CutbFromMattersOnlyUnderTrueRange : Prop :=
  (∀ s t s' t' : State, exec (.cutb false) s = .next s' → exec (.cutb false) t = .next t' →
    s'.statusFail = false → t'.statusFail = false → s.opa = t.opa → s.opc = t.opc → s'.result = t'.result) ∧
  ∀ s : State, s.opb = 1#64 → exec (.cutb true) s = exec (.cutb false) s

/-! ### Every completion -/

/-- Every command completes from every state: DONE = 1, nothing pending, LAST_OP its opcode, and no input register, no sticky flag
and no field of the model's own changes (rule R57, rule R25, rule R34). -/
def Obligations.EveryCommandCompletesAndKeepsInputs : Prop :=
  ∀ (i : Instr) (s : State), ∃ t, exec i s = .next t ∧
    t.statusDone = true ∧ t.pend = none ∧ t.statusLastOp = i.opcode ∧ SameInputs s t ∧
    t.statusProto = s.statusProto ∧ t.inReset = s.inReset ∧ t.host = s.host ∧ t.reads = s.reads ∧
    t.lat = s.lat ∧ t.draws = s.draws

/-- The frame of every command through the window: each register except STATUS, RESULT, COUNT, OUT for UNPK and STR for STRF
reads as before (rule R57, rule R32, rule R33). -/
def Obligations.WindowFrameOfEveryCommand : Prop :=
  ∀ (i : Instr) (s t : State) (off : Nat), exec i s = .next t →
    off ≠ 0x010 → off ≠ 0x030 → off ≠ 0x038 →
    (i.opcode = 0x8#4 → ¬(0x200 ≤ off ∧ off < 0x400)) →
    (i.opcode = 0x9#4 → ¬(0x140 ≤ off ∧ off < 0x188)) →
    memRead t off 8 = memRead s off 8

/-- A completion, of a legal word or not, appends exactly one event (op, err) where its error code is not 0, and none otherwise
(rule R185). -/
def Obligations.OneEventExactlyOnError : Prop :=
  ∀ (s t : State) (c : Word), EngineNext s c → step s = .next t →
    t.diaglog = s.diaglog ++
      (if t.statusErr = 0#4 then [] else [DiagEvent.mk (c.extractLsb' 0 4) t.statusErr])

/-- CLSV, CLSB, MASK and STRF never fail (rule R181). -/
def Obligations.TotalCommandsNeverFail : Prop :=
  ∀ (i : Instr) (s : State), i = .clsv ∨ i = .clsb ∨ i = .mask ∨ i = .strf →
    ∃ t, exec i s = .next t ∧ t.statusFail = false ∧ t.statusErr = 0#4

/-- Which error codes each opcode raises (the table of rule R180). -/
def Obligations.ErrorCodesByOpcode : Prop :=
  ∀ (i : Instr) (s t : State), exec i s = .next t → t.statusErr ≠ 0#4 →
    ((t.statusErr = 1#4 ∨ t.statusErr = 2#4) ∧ (i.opcode = 0x4#4 ∨ i.opcode = 0x5#4)) ∨
    ((t.statusErr = 3#4 ∨ t.statusErr = 4#4 ∨ t.statusErr = 5#4) ∧ i.opcode = 0x6#4) ∨
    ((t.statusErr = 6#4 ∨ t.statusErr = 7#4) ∧ (i.opcode = 0x7#4 ∨ i.opcode = 0x8#4))

/-- The outputs of a command are a function of the command and its inputs, and of nothing else: two states that agree on
the inputs get the same outputs, status and events (rule R14). -/
def Obligations.OutputsDependOnInputsOnly : Prop :=
  ∀ (i : Instr) (s t : State), SameInputs s t →
    ∃ (s' t' : State) (events : List DiagEvent), exec i s = .next s' ∧ exec i t = .next t' ∧
      s'.result = t'.result ∧ s'.count = t'.count ∧ s'.statusFail = t'.statusFail ∧
      s'.statusErr = t'.statusErr ∧ s'.statusLastOp = t'.statusLastOp ∧
      s'.diaglog = s.diaglog ++ events ∧ t'.diaglog = t.diaglog ++ events ∧
      (i.opcode = 0x8#4 → s'.out = t'.out) ∧ (i.opcode = 0x9#4 → s'.str = t'.str)

/-! ### The register window -/

/-- A CMD write made while idle is accepted whatever the word: PEND takes it, so that STATUS reads BUSY = 1, DONE is cleared, and
nothing else of the block changes; the model's own latency fields are left out (rule R55). -/
def Obligations.IdleCmdWriteIsAccepted : Prop :=
  ∀ (s : State) (c : Word), s.inReset = false → s.pend = none →
    { memWrite 0x008 8 c s with lat := s.lat, draws := s.draws } = { s with pend := some c, statusDone := false } ∧
    (memRead (memWrite 0x008 8 c s) 0x010 8).getLsbD 0 = true ∧
    (memRead (memWrite 0x008 8 c s) 0x010 8).getLsbD 1 = false

/-- While busy, a write of CMD or of an input register is dropped and sets PROTO_ERR, and no read but STATUS sees that a command
is pending. A STATUS write is never refused, and a write of any other offset is ignored without a flag, busy or not (rule R56). -/
def Obligations.WritesWhileBusyAreRefused : Prop :=
  ∀ (s : State) (v : Word), s.inReset = false →
    (s.pend ≠ none →
      (∀ off, off = 0x008 ∨ InputOffset off → memWrite off 8 v s = { s with statusProto := true }) ∧
      ∀ off, off ≠ 0x010 → memRead s off 8 = memRead { s with pend := none } off 8) ∧
    memWrite 0x010 8 v s = { s with statusProto := s.statusProto && !v.getLsbD 8 } ∧
    ∀ off, off ≠ 0x008 → off ≠ 0x010 → ¬InputOffset off → memWrite off 8 v s = s

/-- While idle, an input register reads back what was written (ELEM_NI its low 16 bits), every other offset reads as before, and
only input registers change (rule R52, rule R28, rule R31). -/
def Obligations.InputWriteReadsBack : Prop :=
  ∀ (s : State) (v : Word) (off : Nat), s.inReset = false → s.pend = none → InputOffset off →
    memRead (memWrite off 8 v s) off 8 = (if off = 0x040 then v &&& 0xFFFF#64 else v) ∧
    (∀ off', off' ≠ off → memRead (memWrite off 8 v s) off' 8 = memRead s off' 8) ∧
    { memWrite off 8 v s with
      opa := s.opa, opb := s.opb, opc := s.opc, elemNi := s.elemNi, layoutNi := s.layoutNi,
      elem := s.elem, layout := s.layout } = s

/-- ID reads ID_VALUE, CMD and every unmapped offset read 0, and writes to read-only and unmapped offsets change nothing
(rule R21, rule R22, rule R23). -/
def Obligations.ReadOnlyAndUnmappedOffsets : Prop :=
  ∀ (s : State) (v : Word), s.inReset = false →
    memRead s 0x000 8 = 0x5059_4249_545F_0007#64 ∧ memRead s 0x008 8 = 0#64 ∧
    (∀ off, UnmappedOffset off → memRead s off 8 = 0#64) ∧
    ∀ off, off % 8 = 0 → off ≠ 0x008 → off ≠ 0x010 → ¬InputOffset off → memWrite off 8 v s = s

/-- What each data register reads: the operand, result and tag registers, COUNT and ELEM_NI with zeros above their fields, and
the bytes of LAYOUT_W and STR_W with the lower-numbered entry in the lower bits (rule R21, rules R25 to R33, rule R53). -/
def Obligations.WindowReadsTheRegisters : Prop :=
  ∀ s : State, s.inReset = false →
    memRead s 0x018 8 = s.opa ∧ memRead s 0x020 8 = s.opb ∧ memRead s 0x028 8 = s.opc ∧
    memRead s 0x030 8 = s.result ∧ (memRead s 0x038 8).toNat = s.count.toNat ∧
    (memRead s 0x040 8).toNat = s.elemNi.toNat ∧ memRead s 0x048 8 = s.layoutNi ∧
    (∀ i : Fin 16, memRead s (0x080 + 8 * i) 8 = s.elem[i]) ∧
    (∀ (j k : Fin 8), (memRead s (0x100 + 8 * j) 8).extractLsb' (8 * k) 8 = s.layout[8 * j.val + k.val]) ∧
    (∀ (j : Fin 9) (k : Fin 8), (memRead s (0x140 + 8 * j) 8).extractLsb' (8 * k) 8 = s.str[8 * j.val + k.val]) ∧
    ∀ i : Fin 64, memRead s (0x200 + 8 * i) 8 = s.out[i]

/-- The fields of STATUS as it is read, every reserved bit 0 (rule R24). -/
def Obligations.StatusReadsItsFields : Prop :=
  ∀ s : State, s.inReset = false → ∀ b < 64, (memRead s 0x010 8).getLsbD b =
    if b = 0 then s.pend.isSome
    else if b = 1 then s.statusDone
    else if b = 2 then s.statusFail
    else if 4 ≤ b ∧ b ≤ 7 then s.statusErr.getLsbD (b - 4)
    else if b = 8 then s.statusProto
    else if 12 ≤ b ∧ b ≤ 15 then s.statusLastOp.getLsbD (b - 12)
    else false

/-- An access that is not 8 bytes wide at a multiple of 8 reads 0 and writes nothing (rule R54). For sizes other than the 1, 2, 4
and 8 bytes that the rule lists this is DEDUCED, and unsafe for a wider access that a platform splits (assumption log 7). -/
def Obligations.UnadmittedAccessHasNoEffect : Prop :=
  ∀ (s : State) (off size : Nat) (v : Word), size ≠ 8 ∨ off % 8 ≠ 0 →
    memRead s off size = 0#64 ∧ memWrite off size v s = s

/-! ### Host steps and reset -/

/-- A host read of the window returns the register's value and changes nothing of the block (rule R52, rule R60); the queue and the
returned values are the model's (assumption log 1). -/
def Obligations.HostReadStepReturnsValue : Prop :=
  ∀ (s : State) (off size : Nat) (rest : List HostOp), off < 0x400 →
    HostNext s (.read (Config.base + off) size) rest →
    step s = .next { s with
      host := rest, lat := s.lat - 1, reads := s.reads ++ [memRead s off size] }

/-- A host write of the window takes effect as MemWrite (rule R52, rule R63). -/
def Obligations.HostWriteStepWrites : Prop :=
  ∀ (s : State) (off size : Nat) (v : Word) (rest : List HostOp), off < 0x400 →
    HostNext s (.write (Config.base + off) size v) rest →
    step s = .next (memWrite off size v { s with host := rest, lat := s.lat - 1 })

/-- The pseudo `wait` reads STATUS, and again while BUSY is 1 (rule R79, assumption log 11). -/
def Obligations.WaitPollsUntilIdle : Prop :=
  ∀ (s : State) (rest : List HostOp), s.inReset = false → HostNext s .wait rest →
    step s = .next { s with
      host := if s.pend.isSome then .wait :: rest else rest
      lat := s.lat - 1
      reads := s.reads ++ [memRead s 0x010 8] }

/-- The machine stops only at a host access outside the window, which is the model's choice (assumption log 6): no command
traps or refuses (rule R186). -/
def Obligations.OnlyOutsideAccessStops : Prop :=
  ∀ s : State, (∃ t, step s = .next t) ∨
    (step s = .fault .outsideWindow ∧ ∃ a rest, s.host = a :: rest ∧
      ((∃ addr size, a = .read addr size ∧ ¬(Config.base ≤ addr ∧ addr < Config.base + 0x400)) ∨
       ∃ addr size v, a = .write addr size v ∧ ¬(Config.base ≤ addr ∧ addr < Config.base + 0x400)))

/-- Right after reset every register of the window reads 0 but ID, nothing is pending, and no event has been emitted (rule R200,
rule R21; the empty DIAGLOG is DEDUCED, assumption log 4). -/
def Obligations.ResetStateReadsZero : Prop :=
  State.reset.pend = none ∧ State.reset.diaglog = [] ∧
  ∀ off, memRead State.reset off 8 = if off = 0 then 0x5059_4249_545F_0007#64 else 0#64

/-- Asserting reset puts the block at its reset values, abandons a pending command without an event and keeps DIAGLOG; while it is
asserted accesses have no effect and read 0; releasing it leaves the reset values (rule R200). What becomes of the host's side
is the model's choice (assumption log 3), and that a read of ID made meanwhile gives 0 too is DEDUCED (assumption log 15). -/
def Obligations.ResetInputHoldsTheBlock : Prop :=
  (∀ (s : State) (rest : List HostOp), HostNext s .assertReset rest →
    step s = .next { State.reset with
      diaglog := s.diaglog, inReset := true, host := rest, reads := s.reads, draws := s.draws }) ∧
  (∀ (s : State) (off size : Nat) (v : Word), s.inReset = true →
    memRead s off size = 0#64 ∧ memWrite off size v s = s) ∧
  ∀ (s : State) (rest : List HostOp), s.inReset = true → HostNext s .releaseReset rest →
    step s = .next { State.reset with
      diaglog := s.diaglog, inReset := false, host := rest, reads := s.reads, draws := s.draws }

/-! ### Every step -/

/-- The reset state has the legal values of rule R24. -/
def Obligations.ResetStateIsLegal : Prop := LegalState State.reset

/-- Every step keeps the legal values (rule R24, rule R27, rule R180) and holds the block at its reset values while reset is asserted
(rule R200). -/
def Obligations.EveryStepKeepsLegalState : Prop :=
  ∀ s t : State, LegalState s → step s = .next t → LegalState t

/-- Progress: an accepted command completes within `lat` + 1 steps, whatever ordinary accesses the host has queued (rule R59, with the
model's reading of LAT, assumption log 2). -/
def Obligations.PendingCommandCompletes : Prop :=
  ∀ (s : State) (c : Word), s.pend = some c → (∀ a ∈ s.host, a.Ordinary) →
    ∃ k ≤ s.lat + 1, ∃ t : State, Host.Core.run Sys2Proof.core k s = .next t ∧
      t.pend = none ∧ t.statusDone = true ∧ t.statusLastOp = c.extractLsb' 0 4

/-- While a command stays pending, no step changes an input or an output register or DIAGLOG: its completion reads the inputs of its
acceptance, which the spec infers in rule R37, "they held when the command was accepted" (from rule R56). -/
def Obligations.PendingCommandFreezesRegisters : Prop :=
  ∀ (s t : State) (c : Word), s.pend = some c → step s = .next t →
    t.pend = none ∨
    (t.pend = some c ∧ SameInputs s t ∧ t.result = s.result ∧ t.count = s.count ∧ t.out = s.out ∧ t.str = s.str ∧
      t.statusDone = s.statusDone ∧ t.statusFail = s.statusFail ∧ t.statusErr = s.statusErr ∧
      t.statusLastOp = s.statusLastOp ∧ t.diaglog = s.diaglog)

/-- DIAGLOG only grows: no step, a reset among them, removes or changes an event (rule R185, rule R200). -/
def Obligations.DiagLogOnlyGrows : Prop :=
  ∀ s t : State, step s = .next t → s.diaglog <+: t.diaglog

/-- PROTO_ERR is sticky: only a host write of STATUS with bit 8 set, or the reset input, clears it (rule R24, rule R187). -/
def Obligations.ProtoErrIsSticky : Prop :=
  ∀ s t : State, step s = .next t → s.statusProto = true → t.statusProto = false →
    ∃ a rest, s.host = a :: rest ∧
      ((∃ v : Word, a = .write (Config.base + 0x010) 8 v ∧ v.getLsbD 8 = true) ∨
        a = .assertReset ∨ a = .releaseReset)

/-- A final state stays as it is: the idle step is the model's choice (rule R205, assumption log 10). -/
def Obligations.FinalStateStays : Prop :=
  ∀ s : State, s.Final → step s = .next s
end

