-- ==== Sys2Proof/Laws/Bits.lean ====
section
/-! SUPPORT. The integer operators of rule R8, bit by bit, and what word() makes of them (rule R9, rule R10). -/

namespace Sys2Proof.Machine

open Sys2Proof

/-- `a >> s` is floor(a / 2^s) (rule R8). -/
theorem shr_eq_div (a : Int) (s : Nat) : shr a s = a / 2 ^ s := by
  simp [shr, Int.shiftRight_eq_div_pow]

/-- Bit i of an integer is floor(a / 2^i) mod 2 (rule R8). -/
theorem zbit_eq_div (a : Int) (i : Nat) : zbit a i = decide (a / 2 ^ i % 2 = 1) := by
  simp only [zbit, shr_eq_div]
  exact Bool.beq_eq_decide_eq _ _

theorem zbit_ofNat (m i : Nat) : zbit (.ofNat m) i = m.testBit i := by
  rw [zbit_eq_div, Nat.testBit_eq_decide_div_mod_eq]
  simp only [Int.ofNat_eq_natCast, decide_eq_decide]
  norm_cast

theorem zbit_negSucc (m i : Nat) : zbit (.negSucc m) i = !m.testBit i := by
  rw [zbit_eq_div, Nat.testBit_eq_decide_div_mod_eq]
  have h : Int.negSucc m / 2 ^ i = Int.negSucc (m / 2 ^ i) := by
    have := Int.negSucc_ediv m (b := (2 : Int) ^ i) (by positivity)
    rw [this, Int.negSucc_eq]
    rfl
  rw [h, ← decide_not, decide_eq_decide]
  omega

/-- Two integers with the same bits are equal. -/
theorem eq_of_zbit {a b : Int} (h : ∀ i, zbit a i = zbit b i) : a = b := by
  cases a with
  | ofNat m =>
    cases b with
    | ofNat n =>
      exact congrArg _ (Nat.eq_of_testBit_eq fun i => by simpa only [zbit_ofNat] using h i)
    | negSucc n =>
      have := h (m + n)
      rw [zbit_ofNat, zbit_negSucc, Nat.testBit_lt_two_pow, Nat.testBit_lt_two_pow] at this
      · simp at this
      · exact lt_of_le_of_lt (Nat.le_add_left n m) Nat.lt_two_pow_self
      · exact lt_of_le_of_lt (Nat.le_add_right m n) Nat.lt_two_pow_self
  | negSucc m =>
    cases b with
    | ofNat n =>
      have := h (m + n)
      rw [zbit_ofNat, zbit_negSucc, Nat.testBit_lt_two_pow, Nat.testBit_lt_two_pow] at this
      · simp at this
      · exact lt_of_le_of_lt (Nat.le_add_left n m) Nat.lt_two_pow_self
      · exact lt_of_le_of_lt (Nat.le_add_right m n) Nat.lt_two_pow_self
    | negSucc n =>
      exact congrArg _ (Nat.eq_of_testBit_eq fun i => by
        simpa only [zbit_negSucc, Bool.not_inj_iff] using h i)

/-- `~a` complements every bit. -/
@[simp] theorem zbit_znot (a : Int) (i : Nat) : zbit (znot a) i = !zbit a i := by
  cases a with
  | ofNat m =>
    have : znot (.ofNat m) = .negSucc m := by simp [znot, Int.negSucc_eq]; omega
    rw [this, zbit_negSucc, zbit_ofNat]
  | negSucc m =>
    have : znot (.negSucc m) = .ofNat m := by simp [znot, Int.negSucc_eq]
    rw [this, zbit_negSucc, zbit_ofNat, Bool.not_not]

/-- `a & b` acts bit by bit. -/
@[simp] theorem zbit_zand (a b : Int) (i : Nat) : zbit (zand a b) i = (zbit a i && zbit b i) := by
  cases a <;> cases b <;>
    simp only [zand, zbit_ofNat, zbit_negSucc, Nat.testBit_and, Nat.testBit_or, Nat.testBit_xor] <;>
    grind

/-- `a | b` acts bit by bit. -/
@[simp] theorem zbit_zor (a b : Int) (i : Nat) : zbit (zor a b) i = (zbit a i || zbit b i) := by
  simp [zor]

/-- `a ^ b` acts bit by bit. -/
@[simp] theorem zbit_zxor (a b : Int) (i : Nat) : zbit (zxor a b) i = (zbit a i ^^ zbit b i) := by
  cases a <;> cases b <;> simp [zxor, zbit_ofNat, zbit_negSucc, Nat.testBit_xor, -Int.ofNat_eq_natCast]

/-- Every bit of 0 is 0. -/
@[simp] theorem zbit_zero (i : Nat) : zbit 0 i = false := by
  simp [zbit_eq_div]

/-- The bits of a left shift. -/
@[simp] theorem zbit_shl (a : Int) (s i : Nat) : zbit (shl a s) i = (decide (s ≤ i) && zbit a (i - s)) := by
  rw [zbit_eq_div, zbit_eq_div, shl]
  by_cases h : s ≤ i
  · have e : (2 : Int) ^ i = 2 ^ s * 2 ^ (i - s) := by rw [← pow_add, Nat.add_sub_cancel' h]
    rw [e, ← Int.ediv_ediv_of_nonneg (by positivity), Int.mul_ediv_cancel _ (by positivity)]
    simp [h]
  · have e : (2 : Int) ^ s = 2 ^ i * (2 * 2 ^ (s - i - 1)) := by
      rw [← pow_succ', ← pow_add]
      congr 1
      omega
    have e2 : a * (2 : Int) ^ s / 2 ^ i = 2 * (a * 2 ^ (s - i - 1)) := by
      rw [e, show a * (2 ^ i * (2 * 2 ^ (s - i - 1))) = 2 * (a * 2 ^ (s - i - 1)) * (2 : Int) ^ i by ring]
      exact Int.mul_ediv_cancel _ (by positivity)
    rw [e2]
    simp [h]

/-- The bits of a right shift. -/
@[simp] theorem zbit_shr (a : Int) (s i : Nat) : zbit (shr a s) i = zbit a (s + i) := by
  rw [zbit_eq_div, zbit_eq_div, shr_eq_div, Int.ediv_ediv_of_nonneg (by positivity), ← pow_add]

/-- The bits of 1. -/
theorem zbit_one (i : Nat) : zbit 1 i = decide (i = 0) := by
  have h := zbit_ofNat 1 i
  rw [Int.ofNat_eq_natCast, Nat.cast_one] at h
  rw [h]
  cases i <;> simp [Nat.testBit_succ]

/-- The mask of the low n bits has exactly those bits. -/
@[simp] theorem zbit_lowMask (n i : Nat) : zbit (lowMask n) i = decide (i < n) := by
  have e : lowMask n = .ofNat (2 ^ n - 1) := by
    rw [lowMask, shl, one_mul, Int.ofNat_eq_natCast, Nat.cast_sub Nat.one_le_two_pow]
    simp
  rw [e, zbit_ofNat, Nat.testBit_two_pow_sub_one]

/-- Bit i of word(a) is bit i of a (rule R9). -/
@[simp] theorem getLsbD_word (a : Int) (i : Nat) : (word a).getLsbD i = (decide (i < 64) && zbit a i) := by
  cases a with
  | ofNat m =>
    rw [word, Int.ofNat_eq_natCast, BitVec.ofInt_natCast, BitVec.getLsbD_ofNat, ← Int.ofNat_eq_natCast, zbit_ofNat]
  | negSucc m =>
    rw [word, BitVec.ofInt_negSucc_eq_not_ofNat, BitVec.getLsbD_not, BitVec.getLsbD_ofNat, zbit_negSucc]
    by_cases h : i < 64 <;> simp [h]

/-- Bit i of word(a) is bit i of a, in the form simp prefers. -/
@[simp] theorem getElem_word (a : Int) (i : Nat) (h : i < 64) : (word a)[i] = zbit a i := by
  rw [← BitVec.getLsbD_eq_getElem, getLsbD_word]
  simp [h]

/-- word() of the signed reading gives the word back (rule R9). -/
@[simp] theorem word_sint (x : Word) : word (sint x) = x := BitVec.ofInt_toInt

/-- An arithmetic right shift of the signed reading is the arithmetic shift of the word (rule R10). -/
@[simp] theorem word_shr_sint (x : Word) (s : Nat) : word (shr (sint x) s) = x.sshiftRight s :=
  BitVec.sshiftRight_eq.symm

/-- The bits of sint(x): those of x, then its sign in every bit above (rule R8, rule R9). -/
theorem zbit_sint (x : Word) (i : Nat) : zbit (sint x) i = if i < 64 then x.getLsbD i else x.msb := by
  have h := getLsbD_word (shr (sint x) i) 0
  rw [word_shr_sint, BitVec.getLsbD_sshiftRight] at h
  simpa using h.symm

/-- The bits of uint(x) are those of x (rule R9). -/
theorem testBit_uint (x : Word) (i : Nat) : (uint x).testBit i = x.getLsbD i := rfl

/-- word() takes `&` to the word operator (rule R10). -/
@[simp] theorem word_zand (a b : Int) : word (zand a b) = word a &&& word b := by
  apply BitVec.eq_of_getLsbD_eq
  intro i h
  simp [h]

/-- word() takes `|` to the word operator (rule R10). -/
@[simp] theorem word_zor (a b : Int) : word (zor a b) = word a ||| word b := by
  apply BitVec.eq_of_getLsbD_eq
  intro i h
  simp [h]

/-- word() takes `^` to the word operator (rule R10). -/
@[simp] theorem word_zxor (a b : Int) : word (zxor a b) = word a ^^^ word b := by
  apply BitVec.eq_of_getLsbD_eq
  intro i h
  simp [h]

/-- word() takes `~` to the word operator (rule R10). -/
@[simp] theorem word_znot (a : Int) : word (znot a) = ~~~word a := by
  apply BitVec.eq_of_getLsbD_eq
  intro i h
  simp [h]

/-- word() takes a left shift to the shift of the word, 0 from 64 on (rule R10). -/
@[simp] theorem word_shl (a : Int) (s : Nat) : word (shl a s) = word a <<< s := by
  apply BitVec.eq_of_getLsbD_eq
  intro i h
  by_cases hs : s ≤ i
  · simp [h, hs, show ¬i < s by omega]
  · simp [hs, show i < s by omega]

end Sys2Proof.Machine
end

