-- ==== Sys2Proof/Laws/Decode.lean ====
section
/-! SUPPORT. What the decoder can do (30_encoding.md rule R74): the fields determine the word, and each command it answers with
comes with the fields of its row. -/

namespace Sys2Proof

/-- A word is determined by its five fields (rule R70). -/
theorem eq_of_fields {c d : Word} (hop : fieldOp c = fieldOp d) (hm : fieldModes c = fieldModes d)
    (h3 : fieldM3 c = fieldM3 d) (hc : fieldCnt c = fieldCnt d) (hr : fieldRes c = fieldRes d) : c = d := by
  apply BitVec.eq_of_getLsbD_eq
  intro i hi
  have bit (start len : Nat) (h : c.extractLsb' start len = d.extractLsb' start len)
      (h1 : start ≤ i) (h2 : i < start + len) : c.getLsbD i = d.getLsbD i := by
    have := congrArg (fun v : BitVec len => v.getLsbD (i - start)) h
    simpa [BitVec.getLsbD_extractLsb', show i - start < len by omega, Nat.add_sub_cancel' h1] using this
  rcases Nat.lt_or_ge i 4 with h | h
  · exact bit 0 4 hop (by omega) (by omega)
  rcases Nat.lt_or_ge i 7 with h' | h'
  · exact bit 4 3 hm (by omega) (by omega)
  rcases Nat.lt_or_ge i 8 with h'' | h''
  · obtain rfl : i = 7 := by omega
    exact h3
  rcases Nat.lt_or_ge i 16 with h4 | h4
  · exact bit 8 8 hc (by omega) (by omega)
  · exact bit 16 48 hr (by omega) (by omega)

/-- The immediates are accepted exactly where no undefined mode bit is set and CNT is in range (rule R74). -/
theorem withImmediates_eq_ok_iff {c : Word} {allowed : BitVec 3} {maxCnt : Nat} {i j : Instr} :
    withImmediates c allowed maxCnt i = .ok j ↔
      fieldModes c &&& ~~~allowed = 0#3 ∧ (fieldCnt c).toNat ≤ maxCnt ∧ i = j := by
  unfold withImmediates
  by_cases h : fieldModes c &&& ~~~allowed = 0#3 <;> by_cases h' : maxCnt < (fieldCnt c).toNat
  · simp [h, h']
  · simp [h, h', Nat.le_of_not_lt h']
  · simp [h]
  · simp [h]

/-- The mode bits a command's opcode defines (rule R73). -/
def Instr.allowedModes : Instr → BitVec 3
  | .getb _ _ => 0b011#3
  | .setb _ _ _ => 0b111#3
  | .cutb _ => 0b001#3
  | .pack _ _ => 0b001#3
  | .unpk _ => 0b001#3
  | .unpkDflt => 0b001#3
  | _ => 0b000#3

/-- The largest count a command's word may hold (rule R72). -/
def Instr.maxCnt : Instr → Nat
  | .pack _ _ => 16
  | .unpk _ => 64
  | _ => 0

/-- The immediates of a command are those of the word `c` (rule R72, rule R73). -/
def Instr.ImmediatesFrom (c : Word) : Instr → Prop
  | .getb strict tb => strict = fieldM0 c ∧ tb = fieldM1 c
  | .setb st tb andn => st = fieldM0 c ∧ tb = fieldM1 c ∧ andn = fieldM2 c
  | .cutb tr => tr = fieldM0 c
  | .pack fm cnt => fm = fieldM0 c ∧ cnt = fieldCnt c
  | .unpk cnt => fieldM0 c = false ∧ cnt = fieldCnt c
  | .unpkDflt => fieldM0 c = true
  | _ => True

/-- Everything a word's decoding to a command says (rule R70, rule R74): its opcode, its mode bits, its count, its immediates, and the
bits that must be 0. -/
theorem decode_eq_ok {c : Word} {i : Instr} (h : decode c = .ok i) :
    fieldRes c = 0#48 ∧ fieldM3 c = false ∧ fieldOp c = i.opcode ∧
      fieldModes c &&& ~~~i.allowedModes = 0#3 ∧ (fieldCnt c).toNat ≤ i.maxCnt ∧ i.ImmediatesFrom c := by
  unfold decode at h
  have op (n : Nat) (hn : (fieldOp c).toNat = n) : fieldOp c = BitVec.ofNat 4 n := by
    rw [← hn, BitVec.ofNat_toNat, BitVec.setWidth_eq]
  split at h
  · cases h
  rename_i hr
  split at h
  · cases h
  rename_i h3
  refine ⟨by simpa using hr, by simpa using h3, ?_⟩
  split at h
  case h_8 hn =>
    split at h <;> rename_i h4 <;>
    · obtain ⟨hm, hc, rfl⟩ := withImmediates_eq_ok_iff.1 h
      exact ⟨op _ hn, hm, hc, by simp_all [Instr.ImmediatesFrom]⟩
  case h_10 => cases h
  all_goals
    rename_i hn
    obtain ⟨hm, hc, rfl⟩ := withImmediates_eq_ok_iff.1 h
    exact ⟨op _ hn, hm, hc, by simp [Instr.ImmediatesFrom]⟩

end Sys2Proof
end

