-- ==== Sys2Proof/Laws/State.lean ====
section
/-! SUPPORT. One lemma per field per update of the state, each true by rfl, so that no later proof unfolds a record update. -/

namespace Sys2Proof.Machine

open Sys2Proof

variable (s : State)

/-! The completion of a legal command (rule R57), field by field. -/

@[simp] theorem retire_statusDone (op : BitVec 4) (e : Effects) : (retire op e s).statusDone = true := rfl
@[simp] theorem retire_statusFail (op : BitVec 4) (e : Effects) : (retire op e s).statusFail = e.failed := rfl
@[simp] theorem retire_statusErr (op : BitVec 4) (e : Effects) : (retire op e s).statusErr = errCode e.err := rfl
@[simp] theorem retire_statusProto (op : BitVec 4) (e : Effects) : (retire op e s).statusProto = s.statusProto := rfl
@[simp] theorem retire_statusLastOp (op : BitVec 4) (e : Effects) : (retire op e s).statusLastOp = op := rfl
@[simp] theorem retire_opa (op : BitVec 4) (e : Effects) : (retire op e s).opa = s.opa := rfl
@[simp] theorem retire_opb (op : BitVec 4) (e : Effects) : (retire op e s).opb = s.opb := rfl
@[simp] theorem retire_opc (op : BitVec 4) (e : Effects) : (retire op e s).opc = s.opc := rfl
@[simp] theorem retire_result (op : BitVec 4) (e : Effects) : (retire op e s).result = e.result := rfl
@[simp] theorem retire_count (op : BitVec 4) (e : Effects) : (retire op e s).count = e.count := rfl
@[simp] theorem retire_elemNi (op : BitVec 4) (e : Effects) : (retire op e s).elemNi = s.elemNi := rfl
@[simp] theorem retire_layoutNi (op : BitVec 4) (e : Effects) : (retire op e s).layoutNi = s.layoutNi := rfl
@[simp] theorem retire_elem (op : BitVec 4) (e : Effects) : (retire op e s).elem = s.elem := rfl
@[simp] theorem retire_layout (op : BitVec 4) (e : Effects) : (retire op e s).layout = s.layout := rfl
@[simp] theorem retire_str (op : BitVec 4) (e : Effects) : (retire op e s).str = e.str.getD s.str := rfl
@[simp] theorem retire_out (op : BitVec 4) (e : Effects) : (retire op e s).out = e.out.getD s.out := rfl
@[simp] theorem retire_pend (op : BitVec 4) (e : Effects) : (retire op e s).pend = none := rfl
@[simp] theorem retire_diaglog (op : BitVec 4) (e : Effects) : (retire op e s).diaglog = s.diaglog ++ diagEvents op e.err := rfl
@[simp] theorem retire_inReset (op : BitVec 4) (e : Effects) : (retire op e s).inReset = s.inReset := rfl
@[simp] theorem retire_host (op : BitVec 4) (e : Effects) : (retire op e s).host = s.host := rfl
@[simp] theorem retire_reads (op : BitVec 4) (e : Effects) : (retire op e s).reads = s.reads := rfl
@[simp] theorem retire_lat (op : BitVec 4) (e : Effects) : (retire op e s).lat = s.lat := rfl
@[simp] theorem retire_draws (op : BitVec 4) (e : Effects) : (retire op e s).draws = s.draws := rfl

/-! The completion of an illegal word (rule R182), field by field. -/

@[simp] theorem illegalCommand_statusDone (c : Word) : (illegalCommand c s).statusDone = true := rfl
@[simp] theorem illegalCommand_statusFail (c : Word) : (illegalCommand c s).statusFail = true := rfl
@[simp] theorem illegalCommand_statusErr (c : Word) : (illegalCommand c s).statusErr = 8#4 := rfl
@[simp] theorem illegalCommand_statusProto (c : Word) : (illegalCommand c s).statusProto = s.statusProto := rfl
@[simp] theorem illegalCommand_statusLastOp (c : Word) : (illegalCommand c s).statusLastOp = c.extractLsb' 0 4 := rfl
@[simp] theorem illegalCommand_opa (c : Word) : (illegalCommand c s).opa = s.opa := rfl
@[simp] theorem illegalCommand_opb (c : Word) : (illegalCommand c s).opb = s.opb := rfl
@[simp] theorem illegalCommand_opc (c : Word) : (illegalCommand c s).opc = s.opc := rfl
@[simp] theorem illegalCommand_result (c : Word) : (illegalCommand c s).result = s.result := rfl
@[simp] theorem illegalCommand_count (c : Word) : (illegalCommand c s).count = s.count := rfl
@[simp] theorem illegalCommand_elemNi (c : Word) : (illegalCommand c s).elemNi = s.elemNi := rfl
@[simp] theorem illegalCommand_layoutNi (c : Word) : (illegalCommand c s).layoutNi = s.layoutNi := rfl
@[simp] theorem illegalCommand_elem (c : Word) : (illegalCommand c s).elem = s.elem := rfl
@[simp] theorem illegalCommand_layout (c : Word) : (illegalCommand c s).layout = s.layout := rfl
@[simp] theorem illegalCommand_str (c : Word) : (illegalCommand c s).str = s.str := rfl
@[simp] theorem illegalCommand_out (c : Word) : (illegalCommand c s).out = s.out := rfl
@[simp] theorem illegalCommand_pend (c : Word) : (illegalCommand c s).pend = none := rfl
@[simp] theorem illegalCommand_diaglog (c : Word) : (illegalCommand c s).diaglog = s.diaglog ++ [DiagEvent.mk (c.extractLsb' 0 4) 8#4] := rfl
@[simp] theorem illegalCommand_inReset (c : Word) : (illegalCommand c s).inReset = s.inReset := rfl
@[simp] theorem illegalCommand_host (c : Word) : (illegalCommand c s).host = s.host := rfl
@[simp] theorem illegalCommand_reads (c : Word) : (illegalCommand c s).reads = s.reads := rfl
@[simp] theorem illegalCommand_lat (c : Word) : (illegalCommand c s).lat = s.lat := rfl
@[simp] theorem illegalCommand_draws (c : Word) : (illegalCommand c s).draws = s.draws := rfl

/-! A write of STATUS (rule R24), field by field. -/

@[simp] theorem statusWrite_statusDone (v : Word) : (statusWrite v s).statusDone = s.statusDone := rfl
@[simp] theorem statusWrite_statusFail (v : Word) : (statusWrite v s).statusFail = s.statusFail := rfl
@[simp] theorem statusWrite_statusErr (v : Word) : (statusWrite v s).statusErr = s.statusErr := rfl
@[simp] theorem statusWrite_statusProto (v : Word) : (statusWrite v s).statusProto = (s.statusProto && !v.getLsbD 8) := rfl
@[simp] theorem statusWrite_statusLastOp (v : Word) : (statusWrite v s).statusLastOp = s.statusLastOp := rfl
@[simp] theorem statusWrite_opa (v : Word) : (statusWrite v s).opa = s.opa := rfl
@[simp] theorem statusWrite_opb (v : Word) : (statusWrite v s).opb = s.opb := rfl
@[simp] theorem statusWrite_opc (v : Word) : (statusWrite v s).opc = s.opc := rfl
@[simp] theorem statusWrite_result (v : Word) : (statusWrite v s).result = s.result := rfl
@[simp] theorem statusWrite_count (v : Word) : (statusWrite v s).count = s.count := rfl
@[simp] theorem statusWrite_elemNi (v : Word) : (statusWrite v s).elemNi = s.elemNi := rfl
@[simp] theorem statusWrite_layoutNi (v : Word) : (statusWrite v s).layoutNi = s.layoutNi := rfl
@[simp] theorem statusWrite_elem (v : Word) : (statusWrite v s).elem = s.elem := rfl
@[simp] theorem statusWrite_layout (v : Word) : (statusWrite v s).layout = s.layout := rfl
@[simp] theorem statusWrite_str (v : Word) : (statusWrite v s).str = s.str := rfl
@[simp] theorem statusWrite_out (v : Word) : (statusWrite v s).out = s.out := rfl
@[simp] theorem statusWrite_pend (v : Word) : (statusWrite v s).pend = s.pend := rfl
@[simp] theorem statusWrite_diaglog (v : Word) : (statusWrite v s).diaglog = s.diaglog := rfl
@[simp] theorem statusWrite_inReset (v : Word) : (statusWrite v s).inReset = s.inReset := rfl
@[simp] theorem statusWrite_host (v : Word) : (statusWrite v s).host = s.host := rfl
@[simp] theorem statusWrite_reads (v : Word) : (statusWrite v s).reads = s.reads := rfl
@[simp] theorem statusWrite_lat (v : Word) : (statusWrite v s).lat = s.lat := rfl
@[simp] theorem statusWrite_draws (v : Word) : (statusWrite v s).draws = s.draws := rfl

/-! A refused write (rule R56), field by field. -/

@[simp] theorem refuseWrite_statusDone : (refuseWrite s).statusDone = s.statusDone := rfl
@[simp] theorem refuseWrite_statusFail : (refuseWrite s).statusFail = s.statusFail := rfl
@[simp] theorem refuseWrite_statusErr : (refuseWrite s).statusErr = s.statusErr := rfl
@[simp] theorem refuseWrite_statusProto : (refuseWrite s).statusProto = true := rfl
@[simp] theorem refuseWrite_statusLastOp : (refuseWrite s).statusLastOp = s.statusLastOp := rfl
@[simp] theorem refuseWrite_opa : (refuseWrite s).opa = s.opa := rfl
@[simp] theorem refuseWrite_opb : (refuseWrite s).opb = s.opb := rfl
@[simp] theorem refuseWrite_opc : (refuseWrite s).opc = s.opc := rfl
@[simp] theorem refuseWrite_result : (refuseWrite s).result = s.result := rfl
@[simp] theorem refuseWrite_count : (refuseWrite s).count = s.count := rfl
@[simp] theorem refuseWrite_elemNi : (refuseWrite s).elemNi = s.elemNi := rfl
@[simp] theorem refuseWrite_layoutNi : (refuseWrite s).layoutNi = s.layoutNi := rfl
@[simp] theorem refuseWrite_elem : (refuseWrite s).elem = s.elem := rfl
@[simp] theorem refuseWrite_layout : (refuseWrite s).layout = s.layout := rfl
@[simp] theorem refuseWrite_str : (refuseWrite s).str = s.str := rfl
@[simp] theorem refuseWrite_out : (refuseWrite s).out = s.out := rfl
@[simp] theorem refuseWrite_pend : (refuseWrite s).pend = s.pend := rfl
@[simp] theorem refuseWrite_diaglog : (refuseWrite s).diaglog = s.diaglog := rfl
@[simp] theorem refuseWrite_inReset : (refuseWrite s).inReset = s.inReset := rfl
@[simp] theorem refuseWrite_host : (refuseWrite s).host = s.host := rfl
@[simp] theorem refuseWrite_reads : (refuseWrite s).reads = s.reads := rfl
@[simp] theorem refuseWrite_lat : (refuseWrite s).lat = s.lat := rfl
@[simp] theorem refuseWrite_draws : (refuseWrite s).draws = s.draws := rfl

/-! An accepted CMD write (rule R55), field by field. -/

@[simp] theorem accept_statusDone (c : Word) : (accept c s).statusDone = false := rfl
@[simp] theorem accept_statusFail (c : Word) : (accept c s).statusFail = s.statusFail := rfl
@[simp] theorem accept_statusErr (c : Word) : (accept c s).statusErr = s.statusErr := rfl
@[simp] theorem accept_statusProto (c : Word) : (accept c s).statusProto = s.statusProto := rfl
@[simp] theorem accept_statusLastOp (c : Word) : (accept c s).statusLastOp = s.statusLastOp := rfl
@[simp] theorem accept_opa (c : Word) : (accept c s).opa = s.opa := rfl
@[simp] theorem accept_opb (c : Word) : (accept c s).opb = s.opb := rfl
@[simp] theorem accept_opc (c : Word) : (accept c s).opc = s.opc := rfl
@[simp] theorem accept_result (c : Word) : (accept c s).result = s.result := rfl
@[simp] theorem accept_count (c : Word) : (accept c s).count = s.count := rfl
@[simp] theorem accept_elemNi (c : Word) : (accept c s).elemNi = s.elemNi := rfl
@[simp] theorem accept_layoutNi (c : Word) : (accept c s).layoutNi = s.layoutNi := rfl
@[simp] theorem accept_elem (c : Word) : (accept c s).elem = s.elem := rfl
@[simp] theorem accept_layout (c : Word) : (accept c s).layout = s.layout := rfl
@[simp] theorem accept_str (c : Word) : (accept c s).str = s.str := rfl
@[simp] theorem accept_out (c : Word) : (accept c s).out = s.out := rfl
@[simp] theorem accept_pend (c : Word) : (accept c s).pend = some c := rfl
@[simp] theorem accept_diaglog (c : Word) : (accept c s).diaglog = s.diaglog := rfl
@[simp] theorem accept_inReset (c : Word) : (accept c s).inReset = s.inReset := rfl
@[simp] theorem accept_host (c : Word) : (accept c s).host = s.host := rfl
@[simp] theorem accept_reads (c : Word) : (accept c s).reads = s.reads := rfl
@[simp] theorem accept_lat (c : Word) : (accept c s).lat = Config.latency s.draws := rfl
@[simp] theorem accept_draws (c : Word) : (accept c s).draws = s.draws + 1 := rfl

/-! The reset values (rule R200), field by field. -/

@[simp] theorem resetBlock_statusDone (level : Bool) : (resetBlock level s).statusDone = State.reset.statusDone := rfl
@[simp] theorem resetBlock_statusFail (level : Bool) : (resetBlock level s).statusFail = State.reset.statusFail := rfl
@[simp] theorem resetBlock_statusErr (level : Bool) : (resetBlock level s).statusErr = State.reset.statusErr := rfl
@[simp] theorem resetBlock_statusProto (level : Bool) : (resetBlock level s).statusProto = State.reset.statusProto := rfl
@[simp] theorem resetBlock_statusLastOp (level : Bool) : (resetBlock level s).statusLastOp = State.reset.statusLastOp := rfl
@[simp] theorem resetBlock_opa (level : Bool) : (resetBlock level s).opa = State.reset.opa := rfl
@[simp] theorem resetBlock_opb (level : Bool) : (resetBlock level s).opb = State.reset.opb := rfl
@[simp] theorem resetBlock_opc (level : Bool) : (resetBlock level s).opc = State.reset.opc := rfl
@[simp] theorem resetBlock_result (level : Bool) : (resetBlock level s).result = State.reset.result := rfl
@[simp] theorem resetBlock_count (level : Bool) : (resetBlock level s).count = State.reset.count := rfl
@[simp] theorem resetBlock_elemNi (level : Bool) : (resetBlock level s).elemNi = State.reset.elemNi := rfl
@[simp] theorem resetBlock_layoutNi (level : Bool) : (resetBlock level s).layoutNi = State.reset.layoutNi := rfl
@[simp] theorem resetBlock_elem (level : Bool) : (resetBlock level s).elem = State.reset.elem := rfl
@[simp] theorem resetBlock_layout (level : Bool) : (resetBlock level s).layout = State.reset.layout := rfl
@[simp] theorem resetBlock_str (level : Bool) : (resetBlock level s).str = State.reset.str := rfl
@[simp] theorem resetBlock_out (level : Bool) : (resetBlock level s).out = State.reset.out := rfl
@[simp] theorem resetBlock_pend (level : Bool) : (resetBlock level s).pend = State.reset.pend := rfl
@[simp] theorem resetBlock_diaglog (level : Bool) : (resetBlock level s).diaglog = s.diaglog := rfl
@[simp] theorem resetBlock_inReset (level : Bool) : (resetBlock level s).inReset = level := rfl
@[simp] theorem resetBlock_host (level : Bool) : (resetBlock level s).host = s.host := rfl
@[simp] theorem resetBlock_reads (level : Bool) : (resetBlock level s).reads = s.reads := rfl
@[simp] theorem resetBlock_lat (level : Bool) : (resetBlock level s).lat = State.reset.lat := rfl
@[simp] theorem resetBlock_draws (level : Bool) : (resetBlock level s).draws = s.draws := rfl

/-! The arrival of a host access, field by field. -/

@[simp] theorem arrive_statusDone (rest : List HostOp) : (arrive rest s).statusDone = s.statusDone := rfl
@[simp] theorem arrive_statusFail (rest : List HostOp) : (arrive rest s).statusFail = s.statusFail := rfl
@[simp] theorem arrive_statusErr (rest : List HostOp) : (arrive rest s).statusErr = s.statusErr := rfl
@[simp] theorem arrive_statusProto (rest : List HostOp) : (arrive rest s).statusProto = s.statusProto := rfl
@[simp] theorem arrive_statusLastOp (rest : List HostOp) : (arrive rest s).statusLastOp = s.statusLastOp := rfl
@[simp] theorem arrive_opa (rest : List HostOp) : (arrive rest s).opa = s.opa := rfl
@[simp] theorem arrive_opb (rest : List HostOp) : (arrive rest s).opb = s.opb := rfl
@[simp] theorem arrive_opc (rest : List HostOp) : (arrive rest s).opc = s.opc := rfl
@[simp] theorem arrive_result (rest : List HostOp) : (arrive rest s).result = s.result := rfl
@[simp] theorem arrive_count (rest : List HostOp) : (arrive rest s).count = s.count := rfl
@[simp] theorem arrive_elemNi (rest : List HostOp) : (arrive rest s).elemNi = s.elemNi := rfl
@[simp] theorem arrive_layoutNi (rest : List HostOp) : (arrive rest s).layoutNi = s.layoutNi := rfl
@[simp] theorem arrive_elem (rest : List HostOp) : (arrive rest s).elem = s.elem := rfl
@[simp] theorem arrive_layout (rest : List HostOp) : (arrive rest s).layout = s.layout := rfl
@[simp] theorem arrive_str (rest : List HostOp) : (arrive rest s).str = s.str := rfl
@[simp] theorem arrive_out (rest : List HostOp) : (arrive rest s).out = s.out := rfl
@[simp] theorem arrive_pend (rest : List HostOp) : (arrive rest s).pend = s.pend := rfl
@[simp] theorem arrive_diaglog (rest : List HostOp) : (arrive rest s).diaglog = s.diaglog := rfl
@[simp] theorem arrive_inReset (rest : List HostOp) : (arrive rest s).inReset = s.inReset := rfl
@[simp] theorem arrive_host (rest : List HostOp) : (arrive rest s).host = rest := rfl
@[simp] theorem arrive_reads (rest : List HostOp) : (arrive rest s).reads = s.reads := rfl
@[simp] theorem arrive_lat (rest : List HostOp) : (arrive rest s).lat = s.lat - 1 := rfl
@[simp] theorem arrive_draws (rest : List HostOp) : (arrive rest s).draws = s.draws := rfl

/-! A value returned to the host, field by field. -/

@[simp] theorem returnValue_statusDone (v : Word) : (returnValue v s).statusDone = s.statusDone := rfl
@[simp] theorem returnValue_statusFail (v : Word) : (returnValue v s).statusFail = s.statusFail := rfl
@[simp] theorem returnValue_statusErr (v : Word) : (returnValue v s).statusErr = s.statusErr := rfl
@[simp] theorem returnValue_statusProto (v : Word) : (returnValue v s).statusProto = s.statusProto := rfl
@[simp] theorem returnValue_statusLastOp (v : Word) : (returnValue v s).statusLastOp = s.statusLastOp := rfl
@[simp] theorem returnValue_opa (v : Word) : (returnValue v s).opa = s.opa := rfl
@[simp] theorem returnValue_opb (v : Word) : (returnValue v s).opb = s.opb := rfl
@[simp] theorem returnValue_opc (v : Word) : (returnValue v s).opc = s.opc := rfl
@[simp] theorem returnValue_result (v : Word) : (returnValue v s).result = s.result := rfl
@[simp] theorem returnValue_count (v : Word) : (returnValue v s).count = s.count := rfl
@[simp] theorem returnValue_elemNi (v : Word) : (returnValue v s).elemNi = s.elemNi := rfl
@[simp] theorem returnValue_layoutNi (v : Word) : (returnValue v s).layoutNi = s.layoutNi := rfl
@[simp] theorem returnValue_elem (v : Word) : (returnValue v s).elem = s.elem := rfl
@[simp] theorem returnValue_layout (v : Word) : (returnValue v s).layout = s.layout := rfl
@[simp] theorem returnValue_str (v : Word) : (returnValue v s).str = s.str := rfl
@[simp] theorem returnValue_out (v : Word) : (returnValue v s).out = s.out := rfl
@[simp] theorem returnValue_pend (v : Word) : (returnValue v s).pend = s.pend := rfl
@[simp] theorem returnValue_diaglog (v : Word) : (returnValue v s).diaglog = s.diaglog := rfl
@[simp] theorem returnValue_inReset (v : Word) : (returnValue v s).inReset = s.inReset := rfl
@[simp] theorem returnValue_host (v : Word) : (returnValue v s).host = s.host := rfl
@[simp] theorem returnValue_reads (v : Word) : (returnValue v s).reads = s.reads ++ [v] := rfl
@[simp] theorem returnValue_lat (v : Word) : (returnValue v s).lat = s.lat := rfl
@[simp] theorem returnValue_draws (v : Word) : (returnValue v s).draws = s.draws := rfl

/-! A word placed in PEND, field by field. -/

@[simp] theorem pendNow_statusDone (c : Word) : (pendNow c s).statusDone = s.statusDone := rfl
@[simp] theorem pendNow_statusFail (c : Word) : (pendNow c s).statusFail = s.statusFail := rfl
@[simp] theorem pendNow_statusErr (c : Word) : (pendNow c s).statusErr = s.statusErr := rfl
@[simp] theorem pendNow_statusProto (c : Word) : (pendNow c s).statusProto = s.statusProto := rfl
@[simp] theorem pendNow_statusLastOp (c : Word) : (pendNow c s).statusLastOp = s.statusLastOp := rfl
@[simp] theorem pendNow_opa (c : Word) : (pendNow c s).opa = s.opa := rfl
@[simp] theorem pendNow_opb (c : Word) : (pendNow c s).opb = s.opb := rfl
@[simp] theorem pendNow_opc (c : Word) : (pendNow c s).opc = s.opc := rfl
@[simp] theorem pendNow_result (c : Word) : (pendNow c s).result = s.result := rfl
@[simp] theorem pendNow_count (c : Word) : (pendNow c s).count = s.count := rfl
@[simp] theorem pendNow_elemNi (c : Word) : (pendNow c s).elemNi = s.elemNi := rfl
@[simp] theorem pendNow_layoutNi (c : Word) : (pendNow c s).layoutNi = s.layoutNi := rfl
@[simp] theorem pendNow_elem (c : Word) : (pendNow c s).elem = s.elem := rfl
@[simp] theorem pendNow_layout (c : Word) : (pendNow c s).layout = s.layout := rfl
@[simp] theorem pendNow_str (c : Word) : (pendNow c s).str = s.str := rfl
@[simp] theorem pendNow_out (c : Word) : (pendNow c s).out = s.out := rfl
@[simp] theorem pendNow_pend (c : Word) : (pendNow c s).pend = some c := rfl
@[simp] theorem pendNow_diaglog (c : Word) : (pendNow c s).diaglog = s.diaglog := rfl
@[simp] theorem pendNow_inReset (c : Word) : (pendNow c s).inReset = s.inReset := rfl
@[simp] theorem pendNow_host (c : Word) : (pendNow c s).host = s.host := rfl
@[simp] theorem pendNow_reads (c : Word) : (pendNow c s).reads = s.reads := rfl
@[simp] theorem pendNow_lat (c : Word) : (pendNow c s).lat = 0 := rfl
@[simp] theorem pendNow_draws (c : Word) : (pendNow c s).draws = s.draws := rfl

end Sys2Proof.Machine
end

