-- ==== Sys2Proof/Laws/Ops.lean ====
section
/-! SUPPORT. What the shared operations of a completion can do: the states they leave, the widths, and the three loops
(packer, unpacker, renderer), each said once. -/

namespace Sys2Proof.Machine

open Sys2Proof

/-! ### Completions -/

/-- A scalar success leaves the state of `okAfter`. -/
@[simp] theorem retire_scalarOk (op : BitVec 4) (r : Word) (s : State) :
    retire op (scalarOk r) s = okAfter s op r := by
  simp [retire, finish, writeOutputs, scalarOk, okAfter, diagEvents, errCode]

/-- A scalar failure leaves the sentinel, the event and FAIL = 1. -/
@[simp] theorem retire_scalarFail (op : BitVec 4) (e : BitError) (s : State) :
    retire op (scalarFail e) s = errAfter s op all1 e.code true := by
  simp [retire, finish, writeOutputs, scalarFail, scalarOk, errAfter, diagEvents, errCode, Config.sentinel]

/-- A report leaves the result and the event, with FAIL = 0. -/
@[simp] theorem retire_scalarDiag (op : BitVec 4) (e : BitError) (r : Word) (s : State) :
    retire op (scalarDiag e r) s = errAfter s op r e.code false := by
  simp [retire, finish, writeOutputs, scalarDiag, scalarOk, errAfter, diagEvents, errCode]

/-- What EXEC gives for a command (rule R57), as one function of the command and the state. -/
def effectsOf (i : Instr) (s : State) : Effects :=
  match i with
  | .clsv => scalarOk (word (cw (opaInt s)).bits)
  | .clsb => scalarOk (word (cb (opaInt s)).bits)
  | .mask => scalarOk (mk (opaInt s))
  | .getb strict tb => getbEffects strict tb (opaInt s) (opbInt s)
  | .setb st tb andn => setbEffects st tb andn (opaInt s) (opbInt s)
  | .cutb tr => cutbEffects tr (opaInt s) (opbInt s) (opcInt s)
  | .pack fm cnt => packEffects fm (packInputs s cnt.toNat)
  | .unpk cnt => unpackEffects (uint s.opa) (layoutInputs s cnt.toNat)
  | .unpkDflt => unpackEffects (uint s.opa) defaultInputs
  | .strf => stringOk (cw (opaInt s)) (render (opaInt s))

/-- The completion of every command is `retire` with its opcode and its effects: cite this and the field lemmas of `retire`
instead of unfolding a meaning. -/
theorem exec_eq_retire (i : Instr) (s : State) :
    exec i s = .next (retire i.opcode (effectsOf i s) s) := by
  cases i <;> rfl

/-- If a command answers a next state, that state is the one `retire` leaves. -/
theorem exec_next {i : Instr} {s t : State} (h : exec i s = .next t) :
    t = retire i.opcode (effectsOf i s) s := by
  rw [exec_eq_retire] at h
  cases h
  rfl

/-- The next state of a command, as an equation of states. -/
theorem exec_eq_next_iff {i : Instr} {s t : State} :
    exec i s = .next t ↔ retire i.opcode (effectsOf i s) s = t := by
  rw [exec_eq_retire, Host.Outcome.next.injEq]

/-! ### Widths and checks -/

/-- A canonical width is 8, 16, 32 or 64 bits. -/
theorem Width.bits_cases (w : Width) : w.bits = 8 ∨ w.bits = 16 ∨ w.bits = 32 ∨ w.bits = 64 := by
  cases w <;> simp [Width.bits]

/-- A canonical width is at least 8. -/
theorem Width.eight_le_bits (w : Width) : 8 ≤ w.bits := by cases w <;> simp [Width.bits]

/-- A canonical width is at most 64. -/
theorem Width.bits_le (w : Width) : w.bits ≤ 64 := by cases w <;> simp [Width.bits]

/-- A value read from a word lies in the signed range of its canonical width. -/
theorem sint_mem_range (x : Word) :
    -2 ^ ((cw (sint x)).bits - 1) ≤ sint x ∧ sint x < 2 ^ ((cw (sint x)).bits - 1) := by
  have h1 : -2 ^ 63 ≤ sint x := BitVec.le_toInt x
  have h2 : sint x < 2 ^ 63 := BitVec.toInt_lt
  unfold cw
  split_ifs <;> simp only [Width.bits] <;> norm_num at * <;> omega

/-- The three outcomes of the index check (rule R120). -/
theorem idxcheck_cases (num index : Int) (tb : Bool) :
    (idxcheck num index tb = some .indexOutOfRange ∧ index > indexBound num tb) ∨
    (idxcheck num index tb = some .indexNotPositive ∧ index ≤ 0 ∧ index ≤ indexBound num tb) ∨
    (idxcheck num index tb = none ∧ 1 ≤ index ∧ index ≤ indexBound num tb) := by
  unfold idxcheck
  split_ifs <;> simp <;> omega

/-- The four outcomes of the range check (rule R125). -/
theorem cutcheck_cases (num lo hi : Int) :
    (cutcheck num lo hi = some .rangeExceedsWidth ∧ (lo > (cw num).bits ∨ hi > (cw num).bits)) ∨
    (cutcheck num lo hi = some .rangeNotPositive ∧ lo ≤ (cw num).bits ∧ hi ≤ (cw num).bits ∧ (lo ≤ 0 ∨ hi ≤ 0)) ∨
    (cutcheck num lo hi = some .invalidRange ∧ lo ≤ (cw num).bits ∧ hi ≤ (cw num).bits ∧ 1 ≤ lo ∧ 1 ≤ hi ∧ lo ≥ hi) ∨
    (cutcheck num lo hi = none ∧ 1 ≤ lo ∧ lo < hi ∧ hi ≤ (cw num).bits) := by
  unfold cutcheck
  split_ifs <;> simp <;> omega

/-! ### The packer's loop -/

/-- The widths of a list of pack elements, added up. -/
def widthSum (l : List (Bool × Int)) : Nat := (l.map fun p => (cw p.2).bits).sum

@[simp] theorem widthSum_nil : widthSum [] = 0 := rfl

@[simp] theorem widthSum_cons (p : Bool × Int) (l : List (Bool × Int)) :
    widthSum (p :: l) = (cw p.2).bits + widthSum l := by simp [widthSum]

/-- Where nothing is tagged and the widths fit, the loop succeeds, and a bit of its answer is a bit of the accumulator or of an
element placed at 64 minus its running total (rule R150, rule R151). -/
theorem packLoop_of_fits (fm : Bool) (l : List (Bool × Int)) (total : Nat) (acc : Int)
    (htag : ∀ p ∈ l, p.1 = false) (hfit : total + widthSum l ≤ 64) :
    ∃ a, packLoop fm l total acc = .ok a ∧ ∀ b, zbit a b = true ↔ zbit acc b = true ∨
      ∃ i, ∃ h : i < l.length, 64 - (total + widthSum (l.take (i + 1))) ≤ b ∧
        zbit (packValue fm l[i].2) (b - (64 - (total + widthSum (l.take (i + 1))))) = true := by
  induction l generalizing total acc with
  | nil => exact ⟨acc, rfl, fun b => by simp⟩
  | cons p l ih =>
    obtain ⟨tag, v⟩ := p
    obtain rfl : tag = false := htag _ (List.mem_cons_self ..)
    rw [widthSum_cons] at hfit
    dsimp only at hfit
    obtain ⟨a, ha, hb⟩ := ih (total + (cw v).bits)
      (zor acc (shl (packValue fm v) (64 - (total + (cw v).bits))))
      (fun p hp => htag p (List.mem_cons_of_mem _ hp)) (by omega)
    refine ⟨a, ?_, fun b => ?_⟩
    · rw [packLoop, if_neg (by simp), if_neg (by omega), ha]
    · rw [hb b]
      simp only [zbit_zor, zbit_shl, Bool.or_eq_true, Bool.and_eq_true, decide_eq_true_eq]
      constructor
      · rintro ((h | ⟨h1, h2⟩) | ⟨i, hi, h1, h2⟩)
        · exact .inl h
        · exact .inr ⟨0, by simp, by simpa using h1, by simpa using h2⟩
        · exact .inr ⟨i + 1, by simpa using hi, by simpa [Nat.add_assoc] using h1, by simpa [Nat.add_assoc] using h2⟩
      · rintro (h | ⟨i, hi, h1, h2⟩)
        · exact .inl (.inl h)
        · cases i with
          | zero => exact .inl (.inr ⟨by simpa using h1, by simpa using h2⟩)
          | succ i =>
            exact .inr ⟨i, by simpa using hi, by simpa [Nat.add_assoc] using h1, by simpa [Nat.add_assoc] using h2⟩

/-- The first element that is tagged, or takes the total above 64, ends the loop; its tag is checked first (rule R151). -/
theorem packLoop_of_bad (fm : Bool) (pre post : List (Bool × Int)) (tag : Bool) (v : Int) (total : Nat) (acc : Int)
    (htag : ∀ p ∈ pre, p.1 = false) (hfit : total + widthSum pre ≤ 64)
    (hbad : tag = true ∨ 64 < total + widthSum pre + (cw v).bits) :
    packLoop fm (pre ++ (tag, v) :: post) total acc =
      .error (if tag then .nonIntegerElement else .totalWidthExceeded) := by
  induction pre generalizing total acc with
  | nil =>
    rw [List.nil_append, packLoop]
    cases tag
    · simp_all
    · simp
  | cons p pre ih =>
    obtain ⟨tag', v'⟩ := p
    obtain rfl : tag' = false := htag _ (List.mem_cons_self ..)
    rw [widthSum_cons] at hfit hbad
    rw [List.cons_append, packLoop, if_neg (by simp), if_neg (by dsimp only at *; omega)]
    exact ih _ _ (fun p hp => htag p (List.mem_cons_of_mem _ hp)) (by dsimp only at *; omega)
      (by dsimp only at *; rcases hbad with h | h; exacts [.inl h, .inr (by omega)])

/-! ### The unpacker's loop -/

/-- The declared widths of a list of layout entries, added up. -/
def declaredSum (l : List (Bool × Nat)) : Nat := (l.map Prod.snd).sum

@[simp] theorem declaredSum_nil : declaredSum [] = 0 := rfl

@[simp] theorem declaredSum_cons (p : Bool × Nat) (l : List (Bool × Nat)) :
    declaredSum (p :: l) = p.2 + declaredSum l := by simp [declaredSum]

/-- Where nothing is tagged and the widths fit, the loop succeeds with one field per entry, each extracted below the cursor that its
predecessors leave (rule R161). -/
theorem unpackLoop_of_fits (u : Nat) (l : List (Bool × Nat)) (total cursor : Nat)
    (htag : ∀ p ∈ l, p.1 = false) (hfit : total + declaredSum l ≤ 64) :
    ∃ fields, unpackLoop u l total cursor = .ok fields ∧ fields.length = l.length ∧
      ∀ i, ∀ h : i < l.length, fields.getD i 0 =
        unpackField u (cursor - declaredSum (l.take i)) l[i].2 := by
  induction l generalizing total cursor with
  | nil => exact ⟨[], rfl, rfl, fun i h => by simp at h⟩
  | cons p l ih =>
    obtain ⟨tag, d⟩ := p
    obtain rfl : tag = false := htag _ (List.mem_cons_self ..)
    rw [declaredSum_cons] at hfit
    obtain ⟨fields, hf, hl, hi⟩ := ih (total + d) (cursor - d)
      (fun p hp => htag p (List.mem_cons_of_mem _ hp)) (by dsimp only at *; omega)
    refine ⟨unpackField u cursor d :: fields, ?_, by simp [hl], fun i h => ?_⟩
    · rw [unpackLoop, if_neg (by simp), if_neg (by dsimp only at *; omega), hf]
    · cases i with
      | zero => simp
      | succ i => simpa [Nat.sub_sub] using hi i (by simpa using h)

/-- The first entry that is tagged, or takes the total above 64, ends the loop; its tag is checked first (rule R161). -/
theorem unpackLoop_of_bad (u : Nat) (pre post : List (Bool × Nat)) (tag : Bool) (d total cursor : Nat)
    (htag : ∀ p ∈ pre, p.1 = false) (hfit : total + declaredSum pre ≤ 64)
    (hbad : tag = true ∨ 64 < total + declaredSum pre + d) :
    unpackLoop u (pre ++ (tag, d) :: post) total cursor =
      .error (if tag then .nonIntegerElement else .totalWidthExceeded) := by
  induction pre generalizing total cursor with
  | nil =>
    rw [List.nil_append, unpackLoop]
    cases tag
    · simp_all
    · simp
  | cons p pre ih =>
    obtain ⟨tag', d'⟩ := p
    obtain rfl : tag' = false := htag _ (List.mem_cons_self ..)
    rw [declaredSum_cons] at hfit hbad
    rw [List.cons_append, unpackLoop, if_neg (by simp), if_neg (by dsimp only at *; omega),
      ih _ _ (fun p hp => htag p (List.mem_cons_of_mem _ hp)) (by dsimp only at *; omega)
        (by dsimp only at *; rcases hbad with h | h; exacts [.inl h, .inr (by omega)])]

/-! ### The renderer's loop -/

/-- The string over the first n bits has a character per bit and one per complete group of 8 (rule R171). -/
theorem length_renderLsbFirst (num : Int) (n : Nat) : (renderLsbFirst num n).length = n + n / 8 := by
  induction n with
  | zero => rfl
  | succ n ih =>
    rw [renderLsbFirst]
    split_ifs <;> simp [ih] <;> omega

/-- The character GETB's bit test and the renderer's agree on: `(num >> i) & 1` is bit i. -/
theorem zand_shr_one (num : Int) (i : Nat) : zand (shr num i) 1 = if zbit num i then 1 else 0 := by
  apply eq_of_zbit
  intro j
  rw [zbit_zand, zbit_shr, zbit_one]
  split_ifs with h
  · rw [zbit_one]
    by_cases hj : j = 0 <;> simp_all
  · rw [zbit_zero]
    by_cases hj : j = 0 <;> simp_all

/-- Character q of the string assembled least-significant bit first: every ninth is a separator, the others are the bits
in order (rule R171). -/
theorem getD_renderLsbFirst (num : Int) (n q : Nat) (hq : q < n + n / 8) :
    (renderLsbFirst num n).getD q 0#8 =
      if q % 9 = 8 then Config.strSep else digit (zbit num (8 * (q / 9) + q % 9)) := by
  induction n with
  | zero => omega
  | succ n ih =>
    have hl := length_renderLsbFirst num n
    have hd : (zand (shr num n) 1 == 1) = zbit num n := by
      rw [zand_shr_one]
      cases zbit num n <;> rfl
    rw [renderLsbFirst, hd, List.append_assoc]
    rcases Nat.lt_or_ge q (n + n / 8) with h | h
    · rw [List.getD_append _ _ _ _ (by omega)]
      exact ih h
    · rw [List.getD_append_right _ _ _ _ (by omega), hl]
      rcases Nat.eq_or_lt_of_le h with h | h
      · subst h
        rw [Nat.sub_self, List.singleton_append, List.getD_cons_zero, if_neg (by omega)]
        congr 2
        omega
      · have h8 : (n + 1) % 8 = 0 := by omega
        obtain rfl : q = n + n / 8 + 1 := by omega
        rw [if_pos h8, if_pos (by omega), Nat.add_sub_cancel_left]
        rfl

end Sys2Proof.Machine
end

