-- ==== Sys2Proof/Laws/PerInstr.lean ====
section
/-! SUPPORT. What holds of every command as syntax: the OP and RES fields of its word (30_encoding.md rule R70, rule R71). -/

namespace Sys2Proof.Laws.EncodedFields

open Sys2Proof

/-- The word of a command has the command's opcode in bits 3:0, a 0 in bit 7, and zeros in bits 63:16. -/
def Statement (i : Instr) : Prop :=
  fieldOp (encode i) = i.opcode ∧ fieldM3 (encode i) = false ∧ fieldRes (encode i) = 0#48

theorem clsv : Statement .clsv := by unfold Statement; decide
theorem clsb : Statement .clsb := by unfold Statement; decide
theorem mask : Statement .mask := by unfold Statement; decide
theorem getb (strict tb : Bool) : Statement (.getb strict tb) := by
  unfold Statement; revert strict tb; decide
theorem setb (st tb andn : Bool) : Statement (.setb st tb andn) := by
  unfold Statement; revert st tb andn; decide
theorem cutb (tr : Bool) : Statement (.cutb tr) := by unfold Statement; revert tr; decide
theorem pack (fm : Bool) (cnt : BitVec 8) : Statement (.pack fm cnt) := by
  unfold Statement; revert fm cnt; decide
theorem unpk (cnt : BitVec 8) : Statement (.unpk cnt) := by unfold Statement; revert cnt; decide
theorem unpkDflt : Statement .unpkDflt := by unfold Statement; decide
theorem strf : Statement .strf := by unfold Statement; decide

end Sys2Proof.Laws.EncodedFields
end

