-- ==== Sys2Proof/Laws/Window.lean ====
section
/-! SUPPORT. The register window and the step: what a read, a write, a host access and a step can do, each said once. -/

namespace Sys2Proof.Machine

open Sys2Proof

/-! ### The map -/

/-- The register at a register's own offset is that register (rule R21). -/
@[simp] theorem regAt_offset (r : WinReg) : regAt r.offset = some r := by
  cases r with
  | elem i => revert i; decide
  | layoutW j => revert j; decide
  | strW j => revert j; decide
  | out i => revert i; decide
  | _ => rfl

/-- Every register's offset is a multiple of 8, inside the window (rule R21). -/
theorem offset_aligned (r : WinReg) : r.offset % 8 = 0 ∧ r.offset < 0x400 := by
  cases r with
  | elem i => have := i.isLt; simp only [WinReg.offset]; omega
  | layoutW j => have := j.isLt; simp only [WinReg.offset]; omega
  | strW j => have := j.isLt; simp only [WinReg.offset]; omega
  | out i => have := i.isLt; simp only [WinReg.offset]; omega
  | _ => decide

/-- An 8-aligned offset that the map gives to a register is that register's offset (rule R21). -/
theorem offset_of_regAt {off : Nat} {r : WinReg} (ha : off % 8 = 0) (h : regAt off = some r) : r.offset = off := by
  unfold regAt at h
  split_ifs at h
  · simp only [scalarRegAt, List.lookup] at h
    repeat' split at h
    all_goals cases h <;> simp_all [WinReg.offset]
  all_goals
    cases h
    simp only [WinReg.offset]
    omega

/-- Whether an access is admitted (rule R54). -/
@[simp] theorem admitted_eq_true (off size : Nat) : admitted off size = true ↔ size = 8 ∧ off % 8 = 0 := by
  simp [admitted]

/-! ### Reads and writes -/

/-- An admitted read of a register's offset outside reset reads that register (rule R52). -/
theorem memRead_of_reg {s : State} {off : Nat} {r : WinReg} (hr : s.inReset = false) (ha : off % 8 = 0)
    (h : regAt off = some r) : memRead s off 8 = readReg s r := by
  simp [memRead, hr, ha, h]

/-- A read of anything else is 0 (rule R21, rule R54, rule R200). -/
theorem memRead_eq_zero {s : State} {off size : Nat}
    (h : s.inReset = true ∨ size ≠ 8 ∨ off % 8 ≠ 0 ∨ regAt off = none) : memRead s off size = 0#64 := by
  unfold memRead
  split_ifs with h1 h2
  · rfl
  · rw [admitted_eq_true] at h2
    rcases h with h | h | h | h
    · exact absurd h h1
    · exact absurd h2.1 h
    · exact absurd h2.2 h
    · rw [h]
  · rfl

/-- The three things a MemWrite can do: nothing, be refused because a command is pending, or have the register's write
effect (rule R52, rule R56). -/
theorem memWrite_cases (off size : Nat) (v : Word) (s : State) :
    (memWrite off size v s = s ∧
      (s.inReset = true ∨ size ≠ 8 ∨ off % 8 ≠ 0 ∨ regAt off = none)) ∨
    ∃ r, regAt off = some r ∧ s.inReset = false ∧ size = 8 ∧ off % 8 = 0 ∧
      ((memWrite off size v s = refuseWrite s ∧ s.pend.isSome = true ∧ r.frozenWhileBusy = true) ∨
        (memWrite off size v s = writeReg r v s ∧ (s.pend = none ∨ r.frozenWhileBusy = false))) := by
  unfold memWrite
  by_cases h1 : s.inReset = true
  · exact .inl ⟨if_pos h1, .inl h1⟩
  rw [if_neg h1]
  by_cases h2 : admitted off size = true
  · rw [if_pos h2]
    obtain ⟨hs, ha⟩ := (admitted_eq_true off size).1 h2
    cases h3 : regAt off with
    | none => exact .inl ⟨rfl, .inr (.inr (.inr rfl))⟩
    | some r =>
      refine .inr ⟨r, rfl, by simpa using h1, hs, ha, ?_⟩
      cases h4 : s.pend <;> cases h5 : r.frozenWhileBusy <;> simp [busy, h4, h5]
  · rw [if_neg h2]
    rw [admitted_eq_true, not_and_or] at h2
    exact .inl ⟨rfl, .inr (h2.imp_right .inl)⟩

/-- A MemWrite touches no output register, no error field, no history and nothing of the host's side (rule R52). -/
theorem memWrite_frame (off size : Nat) (v : Word) (s : State) :
    let t := memWrite off size v s
    t.statusFail = s.statusFail ∧ t.statusErr = s.statusErr ∧ t.statusLastOp = s.statusLastOp ∧
      t.result = s.result ∧ t.count = s.count ∧ t.str = s.str ∧ t.out = s.out ∧ t.diaglog = s.diaglog ∧
      t.inReset = s.inReset ∧ t.host = s.host ∧ t.reads = s.reads := by
  rcases memWrite_cases off size v s with ⟨h, -⟩ | ⟨r, -, -, -, -, ⟨h, -⟩ | ⟨h, -⟩⟩
  · simp [h]
  · simp [h]
  · cases r <;> simp [h, writeReg]

/-- The bytes of a word from eight bytes (rule R53). -/
theorem byteOf_wordOfBytes (b : Nat → Byte) (k : Nat) (hk : k < 8) : byteOf (wordOfBytes b) k = b k := by
  apply BitVec.eq_of_getLsbD_eq
  intro i hi
  simp only [byteOf, wordOfBytes, BitVec.getLsbD_extractLsb', BitVec.getLsbD_append, hi, decide_true, Bool.true_and]
  interval_cases k <;> simp [hi] <;> (repeat' split) <;>
    first | omega | (rw [← BitVec.getLsbD_eq_getElem]; congr 1; omega)

/-- A word is the word of its bytes (rule R53). -/
theorem wordOfBytes_byteOf (v : Word) : wordOfBytes (byteOf v) = v := by
  apply BitVec.eq_of_getLsbD_eq
  intro i hi
  simp only [byteOf, wordOfBytes, BitVec.getLsbD_extractLsb', BitVec.getLsbD_append]
  (repeat' split) <;>
    first | omega | (simp only [*, decide_true, Bool.true_and]; congr 1; omega) |
      (rw [decide_eq_true (by omega), Bool.true_and]; congr 1; omega)

/-- The entries of LAYOUT that a write of LAYOUT_W[j] leaves alone, and those it sets (rule R31). -/
theorem layoutWrite_getD (l : Vector Byte 64) (j : Fin 8) (v : Word) (i : Nat) (h : i < 64) :
    (layoutWrite l j v).getD i 0#8 = if i / 8 = j.val then byteOf v (i % 8) else l.getD i 0#8 := by
  simp [Vector.getD, h, layoutWrite]

/-- A write of one register leaves what every other register reads, but for CMD and STATUS, whose writes have effects of
their own (rule R52). -/
theorem readReg_writeReg_of_ne {r r' : WinReg} (v : Word) (s : State) (hc : r ≠ .cmd) (hst : r ≠ .status)
    (h : r' ≠ r) : readReg (writeReg r v s) r' = readReg s r' := by
  cases r with
  | cmd => exact absurd rfl hc
  | status => exact absurd rfl hst
  | elem i =>
    cases r' with
    | elem i' =>
      have : i.val ≠ i'.val := fun hv => h (congrArg _ (Fin.ext hv.symm))
      simp [readReg, writeReg, Vector.getElem_set_ne, this]
    | _ => simp [readReg, writeReg, statusWord, busy]
  | layoutW j =>
    cases r' with
    | layoutW j' =>
      have hj : j'.val ≠ j.val := fun hv => h (congrArg _ (Fin.ext hv))
      have hb := j'.isLt
      have key : ∀ k < 8, (layoutWrite s.layout j v).getD (8 * j'.val + k) 0#8 =
          s.layout.getD (8 * j'.val + k) 0#8 := fun k hk => by
        rw [layoutWrite_getD _ _ _ _ (by omega), if_neg (by omega)]
      simp only [readReg, writeReg, wordOfBytes, key 0 (by decide), key 1 (by decide), key 2 (by decide),
        key 3 (by decide), key 4 (by decide), key 5 (by decide), key 6 (by decide), key 7 (by decide)]
    | _ => simp [readReg, writeReg, statusWord, busy]
  | opa => cases r' <;> simp_all [readReg, writeReg, statusWord, busy]
  | opb => cases r' <;> simp_all [readReg, writeReg, statusWord, busy]
  | opc => cases r' <;> simp_all [readReg, writeReg, statusWord, busy]
  | elemNi => cases r' <;> simp_all [readReg, writeReg, statusWord, busy]
  | layoutNi => cases r' <;> simp_all [readReg, writeReg, statusWord, busy]
  | _ => rfl

/-! ### Addresses -/

/-- The offset of an address inside the window (rule R51). -/
theorem windowOffset_base_add {off : Nat} (h : off < 0x400) : windowOffset (Config.base + off) = some off := by
  unfold windowOffset
  rw [if_pos ⟨by omega, by simp only [Config.windowBytes]; omega⟩]
  simp

/-- An address has an offset exactly inside the window (rule R51). -/
theorem windowOffset_eq_some {addr off : Nat} (h : windowOffset addr = some off) :
    addr = Config.base + off ∧ off < 0x400 := by
  unfold windowOffset at h
  split_ifs at h with hc
  cases h
  simp only [Config.windowBytes] at hc
  omega

/-- An address without an offset is outside the window (rule R51). -/
theorem windowOffset_eq_none {addr : Nat} (h : windowOffset addr = none) :
    ¬(Config.base ≤ addr ∧ addr < Config.base + 0x400) := by
  unfold windowOffset at h
  split_ifs at h with hc
  simpa only [Config.windowBytes] using hc

/-! ### The step -/

/-- The three turns: the engine's exactly when a command is pending and no host access comes before it, the host's when one
does, and neither when there is nothing to do (rule R57, rule R59). -/
theorem turn_cases (s : State) :
    (∃ c, turn s = .engine c ∧ EngineNext s c) ∨
    (∃ a rest, turn s = .host a rest ∧ HostNext s a rest) ∨
    (turn s = .idle ∧ s.Final) := by
  unfold turn EngineNext HostNext State.Final
  cases hp : s.pend <;> cases hh : s.host <;> simp
  by_cases hl : s.lat = 0 <;> simp [hl]

/-- The engine's turn. -/
theorem turn_of_engineNext {s : State} {c : Word} (h : EngineNext s c) : turn s = .engine c := by
  obtain ⟨hp, hl⟩ := h
  unfold turn
  rw [hp]
  cases hh : s.host with
  | nil => rfl
  | cons a rest =>
    have : s.lat = 0 := hl.resolve_right (by simp [hh])
    simp [this]

/-- The host's turn. -/
theorem turn_of_hostNext {s : State} {a : HostOp} {rest : List HostOp} (h : HostNext s a rest) :
    turn s = .host a rest := by
  obtain ⟨hh, hl⟩ := h
  unfold turn
  rw [hh]
  cases hp : s.pend with
  | none => rfl
  | some c => simp [hl.resolve_left (by simp [hp])]

/-- A step in the host's turn is the host's access. -/
theorem step_of_hostNext {s : State} {a : HostOp} {rest : List HostOp} (h : HostNext s a rest) :
    step s = hostStep a rest s := by
  simp only [step, turn_of_hostNext h]

/-- A step in the engine's turn completes the pending word. -/
theorem step_of_engineNext {s : State} {c : Word} (h : EngineNext s c) :
    step s = match decode c with
      | .ok i => exec i s
      | .error _ => .next (illegalCommand c s) := by
  cases hd : decode c <;> simp only [step, turn_of_engineNext h, hd]

/-- Everything a host access can answer with a next state (rule R52, rule R200). -/
theorem hostStep_next {a : HostOp} {rest : List HostOp} {s t : State} (h : hostStep a rest s = .next t) :
    (∃ off size, a = .read (Config.base + off) size ∧ off < 0x400 ∧
      t = returnValue (memRead s off size) (arrive rest s)) ∨
    (∃ off size v, a = .write (Config.base + off) size v ∧ off < 0x400 ∧
      t = memWrite off size v (arrive rest s)) ∨
    (a = .wait ∧ t = returnValue (memRead s 0x010 8)
      (arrive (if (memRead s 0x010 8).getLsbD 0 then .wait :: rest else rest) s)) ∨
    (a = .assertReset ∧ t = assertReset (arrive rest s)) ∨
    (a = .releaseReset ∧ t = releaseReset (arrive rest s)) := by
  cases a with
  | read addr size =>
    simp only [hostStep] at h
    split at h
    · cases h
    · rename_i off ho
      obtain ⟨rfl, hlt⟩ := windowOffset_eq_some ho
      cases h
      exact .inl ⟨off, size, rfl, hlt, rfl⟩
  | write addr size v =>
    simp only [hostStep] at h
    split at h
    · cases h
    · rename_i off ho
      obtain ⟨rfl, hlt⟩ := windowOffset_eq_some ho
      cases h
      exact .inr (.inl ⟨off, size, v, rfl, hlt, rfl⟩)
  | wait => cases h; exact .inr (.inr (.inl ⟨rfl, rfl⟩))
  | assertReset => cases h; exact .inr (.inr (.inr (.inl ⟨rfl, rfl⟩)))
  | releaseReset => cases h; exact .inr (.inr (.inr (.inr ⟨rfl, rfl⟩)))

/-- Everything a step can answer with a next state: the completion of a command, that of an illegal word, a host access, or
nothing on an idle block. -/
theorem step_next {s t : State} (h : step s = .next t) :
    (∃ c i, EngineNext s c ∧ decode c = .ok i ∧ exec i s = .next t) ∨
    (∃ c e, EngineNext s c ∧ decode c = .error e ∧ t = illegalCommand c s) ∨
    (∃ a rest, HostNext s a rest ∧ hostStep a rest s = .next t) ∨
    (s.Final ∧ t = s) := by
  rcases turn_cases s with ⟨c, ht, hc⟩ | ⟨a, rest, ht, ha⟩ | ⟨ht, hf⟩
  · rw [step_of_engineNext hc] at h
    cases hd : decode c with
    | ok i => rw [hd] at h; exact .inl ⟨c, i, hc, hd, h⟩
    | error e => rw [hd] at h; cases h; exact .inr (.inl ⟨c, e, hc, hd, rfl⟩)
  · rw [step_of_hostNext ha] at h
    exact .inr (.inr (.inl ⟨a, rest, ha, h⟩))
  · rw [step, ht] at h
    cases h
    exact .inr (.inr (.inr ⟨hf, rfl⟩))

end Sys2Proof.Machine
end

