-- ==== Sys2Proof/Tests/Slice0.lean ====
section
/-! SUPPORT. The model's own tests. Every expected value is read off spec/95_test_vectors.md (the row is cited) or written out
from 30_encoding.md; the last part meets the hypotheses of the statements at concrete states. -/

namespace Sys2Proof.Tests

open Sys2Proof Sys2Proof.Machine

/-- What the very next step leaves, seen through `f`, when the command word `w` is pending. -/
def ran {α : Type} (w : Nat) (s : State) (f : State → α) : Option α :=
  match step (s.withFetchWord 64 w) with
  | .next t => some (f t)
  | .fault _ => none
  | .refused _ => none

/-- The reset state with the scalar operands given. -/
def ops (a b c : Word) : State := { State.reset with opa := a, opb := b, opc := c }

/-- The reset state with elements from a list. -/
def elems (l : List Word) (tags : BitVec 16) : State :=
  { State.reset with elem := Vector.ofFn fun i => l.getD i.val 0#64, elemNi := tags }

/-- The reset state with a pattern in OPA and layout entries from a list. -/
def layouts (u : Word) (l : List Byte) (tags : BitVec 64) : State :=
  { State.reset with opa := u, layout := Vector.ofFn fun i => l.getD i.val 0#8, layoutNi := tags }

/-! ### Ill-formed terms are refused (R72: CNT 0..16 for PACK, 0..64 for UNPK) -/

theorem test_wellFormed_refuses_pack_17 : (Instr.pack true 17#8).wellFormed = false := by decide
theorem test_wellFormed_takes_pack_16 : (Instr.pack true 16#8).wellFormed = true := by decide
theorem test_wellFormed_refuses_unpk_65 : (Instr.unpk 65#8).wellFormed = false := by decide
theorem test_wellFormed_takes_unpk_64 : (Instr.unpk 64#8).wellFormed = true := by decide

/-! ### Words written out from the fields CNT, M3..M0, OP of R70 -/

theorem test_decode_clsv : decode 0b00000000_0000_0001#64 = .ok .clsv := by decide
theorem test_decode_clsb : decode 0b00000000_0000_0010#64 = .ok .clsb := by decide
theorem test_decode_mask : decode 0b00000000_0000_0011#64 = .ok .mask := by decide
theorem test_decode_getb_strict : decode 0b00000000_0001_0100#64 = .ok (.getb true false) := by decide
theorem test_decode_getb_tb : decode 0b00000000_0010_0100#64 = .ok (.getb false true) := by decide
theorem test_decode_setb_s : decode 0b00000000_0001_0101#64 = .ok (.setb true false false) := by decide
theorem test_decode_setb_c_tb_andn : decode 0b00000000_0110_0101#64 = .ok (.setb false true true) := by decide
theorem test_decode_cutb_tr : decode 0b00000000_0001_0110#64 = .ok (.cutb true) := by decide
theorem test_decode_pack_fm_3 : decode 0b00000011_0001_0111#64 = .ok (.pack true 3#8) := by decide
theorem test_decode_unpk_64 : decode 0b01000000_0000_1000#64 = .ok (.unpk 64#8) := by decide
theorem test_decode_unpk_dflt : decode 0b00000000_0001_1000#64 = .ok .unpkDflt := by decide
theorem test_decode_strf : decode 0b00000000_0000_1001#64 = .ok .strf := by decide

/-! ### Illegal words (95_test_vectors.md §2.8, §2.10), each by its reason -/

theorem test_illegal_op_0 : decode 0x0#64 = .error .noSuchOpcode := by decide
theorem test_illegal_op_a : decode 0xA#64 = .error .noSuchOpcode := by decide
theorem test_illegal_bit_16 : decode 0x10001#64 = .error .reservedBits := by decide
theorem test_illegal_bit_63 : decode 0x8000000000000001#64 = .error .reservedBits := by decide
theorem test_illegal_m3 : decode 0xC5#64 = .error .modeBitThree := by decide
theorem test_illegal_clsv_m0 : decode 0x11#64 = .error .undefinedMode := by decide
theorem test_illegal_clsv_cnt : decode 0x101#64 = .error .countOutOfRange := by decide
theorem test_illegal_pack_17 : decode 0x1107#64 = .error .countOutOfRange := by decide
theorem test_illegal_unpk_65 : decode 0x4108#64 = .error .countOutOfRange := by decide
theorem test_illegal_dflt_cnt : decode 0x118#64 = .error .countOutOfRange := by decide
theorem test_illegal_unpk_m1 : decode 0x28#64 = .error .undefinedMode := by decide

theorem test_table_word : decodeTableWord 64 0x1008 = some (.unpk 16#8) := by decide
theorem test_table_word_short : decodeTableWord 8 0x55 = some (.setb true false true) := by decide
theorem test_table_word_refused : decodeTableWord 64 0x1107 = none := by decide

/-! ### One step per test (95_test_vectors.md §1, §2); STATUS is read through the window -/

/-- §2.1: 128 is 16 bits wide. -/
theorem test_clsv_128 : ran 0x1 (ops 128 0 0) (fun t => (t.result, statusWord t)) = some (16#64, 0x1002#64) := by decide
/-- §2.1: -2147483649 is 64 bits wide. -/
theorem test_clsv_below_int32 : ran 0x1 (ops 0xFFFFFFFF7FFFFFFF 0 0) (·.result) = some 64#64 := by decide
/-- §2.2: 32 stands for itself. -/
theorem test_clsb_32 : ran 0x2 (ops 32 0 0) (fun t => (t.result, statusWord t)) = some (32#64, 0x2002#64) := by decide
/-- §2.2: 12 is no canonical width. -/
theorem test_clsb_fallback : ran 0x2 (ops 12 0 0) (·.result) = some 8#64 := by decide
/-- §2.3. -/
theorem test_mask_16 :
    ran 0x3 (ops 16 0 0) (fun t => (t.result, statusWord t)) = some (0xFFFF000000000000#64, 0x3002#64) := by decide
/-- §2.3: the whole value is compared. -/
theorem test_mask_fallback : ran 0x3 (ops 0x100000008 0 0) (·.result) = some all1 := by decide
/-- §2.4: bit 64 of -1 is its sign, reported. -/
theorem test_getb_reports :
    ran 0x04 (ops all1 65 0) (fun t => (t.result, statusWord t, t.diaglog)) = some (1#64, 0x4012#64, [⟨4#4, 1#4⟩]) := by
  decide
/-- §2.4: a strict failure. -/
theorem test_getb_strict :
    ran 0x14 (ops 5 0 0) (fun t => (t.result, statusWord t, t.diaglog)) = some (all1, 0x4026#64, [⟨4#4, 2#4⟩]) := by
  decide
/-- §2.5: the legacy clear of a clear bit sets it (E19). -/
theorem test_setb_legacy_clear : ran 0x05 (ops 2 1 0) (fun t => (t.result, statusWord t)) = some (3#64, 0x5002#64) := by
  decide
/-- §2.5: a bit above the word leaves it unchanged. -/
theorem test_setb_above_word : ran 0x15 (ops 256 128 0) (·.result) = some 0x100#64 := by decide
/-- §2.6: bits 11..4 of 0x1234. -/
theorem test_cutb_true_range :
    ran 0x16 (ops 0x1234 5 12) (fun t => (t.result, statusWord t)) = some (0x23#64, 0x6002#64) := by decide
/-- §2.6: the width is checked before the sign (D9). -/
theorem test_cutb_priority :
    ran 0x06 (ops 5 0 9) (fun t => (t.result, statusWord t, t.diaglog)) = some (all1, 0x6036#64, [⟨6#4, 3#4⟩]) := by decide
/-- §2.7: -2 bleeds over 1000 in the legacy mode. -/
theorem test_pack_bleed :
    ran 0x307 (elems [1000, 0xFFFFFFFFFFFFFFFE, 70000] 0) (fun t => (t.result, statusWord t)) =
      some (0xFFFFFE0001117000#64, 0x7002#64) := by decide
/-- §2.7: [300] five times with element 4 tagged: the tag before the width. -/
theorem test_pack_tag_first :
    ran 0x507 (elems [300, 300, 300, 300, 300] 0x10) (fun t => (t.result, statusWord t, t.diaglog)) =
      some (all1, 0x7066#64, [⟨7#4, 6#4⟩]) := by decide
/-- §2.8: [24, 8] keeps the top byte of the 24-bit field. -/
theorem test_unpk_24_8 :
    ran 0x208 (layouts 0x0123456789ABCDEF [24, 8] 0) (fun t => (t.count, t.out[0], t.out[1], statusWord t)) =
      some (2#7, 0x10000#64, 0x67#64, 0x8002#64) := by decide
/-- §2.8: [60, 5] fails at entry 1, T = 65. -/
theorem test_unpk_total :
    ran 0x208 (layouts 0x0123456789ABCDEF [60, 5] 0) (fun t => (t.count, t.out[0], statusWord t, t.diaglog)) =
      some (0#7, 0#64, 0x8076#64, [⟨8#4, 7#4⟩]) := by decide
/-- E18. -/
theorem test_unpk_dflt :
    ran 0x18 (ops 0x0102030405060708 0 0) (fun t => (t.count, t.out[0], t.out[7], t.out[8], statusWord t)) =
      some (8#7, 1#64, 8#64, 0#64, 0x8002#64) := by decide
/-- E16. -/
theorem test_strf_5 :
    ran 0x9 (ops 5 0 0) (fun t => (t.result, t.count, readReg t (.strW 0), readReg t (.strW 1), statusWord t)) =
      some (8#64, 9#7, 0x3031303030303020#64, 0x31#64, 0x9002#64) := by decide
/-- §2.9: -129. -/
theorem test_strf_neg129 :
    ran 0x9 (ops 0xFFFFFFFFFFFFFF7F 0 0) (fun t => (t.result, t.count, readReg t (.strW 1), readReg t (.strW 2))) =
      some (16#64, 18#7, 0x3131313131302031#64, 0x3131#64) := by decide
/-- P4 step 2: 0xA is illegal; RESULT stays. -/
theorem test_illegal_step :
    ran 0xA { ops 5 0 0 with result := 8 } (fun t => (t.result, t.opa, statusWord t, t.diaglog)) =
      some (8#64, 5#64, 0xA086#64, [⟨0xA#4, 8#4⟩]) := by decide

/-! ### Window accesses (95_test_vectors.md §2.10) -/

theorem test_issue_status : memRead (memWrite 0x008 8 0x1#64 State.reset) 0x010 8 = 0x1#64 := by decide
theorem test_busy_write_dropped :
    (fun t : State => (t.opa, statusWord t)) (memWrite 0x018 8 7#64 (pendNow 0xA (ops 5 0 0))) = (5#64, 0x101#64) := by
  decide
theorem test_proto_cleared :
    statusWord (memWrite 0x010 8 0x100#64 { State.reset with statusProto := true, statusErr := 8#4 }) = 0x80#64 := by decide
theorem test_layout_write :
    (memWrite 0x100 8 0x04040C00#64 State.reset).layout.toList.take 5 = [0#8, 12#8, 4#8, 4#8, 0#8] := by decide
theorem test_misaligned : (memRead State.reset 0x004 8, memRead State.reset 0x050 8) = (0#64, 0#64) := by decide
theorem test_id : memRead State.reset 0x000 8 = 0x50594249545F0007#64 := by decide
theorem test_elemNi_masked : memRead (memWrite 0x040 8 all1 State.reset) 0x040 8 = 0xFFFF#64 := by decide
theorem test_reset_abandons :
    (fun t : State => (t.pend, t.diaglog, t.opa)) (assertReset (pendNow 0x1#64 (ops 5 0 0))) = (none, [], 0#64) := by decide

/-! ### Witnesses: the hypotheses of each statement that has some, met by a concrete state

`busyWith c` has the word `c` pending and due; a second command or a host access may stand beside it. -/

/-- The word `c` pending, the engine's step the next one. -/
def busyWith (c : Word) : State := pendNow c State.reset

/-- The reset state with the host's accesses still to come. -/
def asked (l : List HostOp) : State := { State.reset with host := l }

/-- A state with the word 0x1 pending, one host access before its completion. -/
def busyAsked (l : List HostOp) : State := { State.reset with pend := some 0x1#64, host := l, lat := 1 }

theorem engineNext_busyWith (c : Word) : EngineNext (busyWith c) c := ⟨rfl, .inl rfl⟩

theorem witness_DecodeEncodeRoundTrip :
    (Instr.pack false 16#8).wellFormed = true ∧ (Instr.unpk 64#8).wellFormed = true ∧ Instr.clsv.wellFormed = true := by
  decide

theorem witness_EncodeRecoversDecodedWord : decode 0x4008#64 = .ok (.unpk 64#8) := by decide

theorem witness_DecodedOpcodeIsLowNibble : decode 0x1017#64 = .ok (.pack true 16#8) := by decide

theorem witness_StepRunsDecodedCommand :
    EngineNext (busyWith 0x45#64) 0x45#64 ∧ decode 0x45#64 = .ok (.setb false false true) :=
  ⟨engineNext_busyWith _, by decide⟩

/-- A reserved bit, no such opcode, and the counts one above their bounds. -/
theorem witness_IllegalWordCompletesWithCodeEight :
    (EngineNext (busyWith 0x10001#64) 0x10001#64 ∧ ¬Legal 0x10001#64) ∧
    (EngineNext (busyWith 0xA#64) 0xA#64 ∧ ¬Legal 0xA#64) ∧
    (EngineNext (busyWith 0x1107#64) 0x1107#64 ∧ ¬Legal 0x1107#64) ∧
    (EngineNext (busyWith 0x4108#64) 0x4108#64 ∧ ¬Legal 0x4108#64) := by
  refine ⟨⟨engineNext_busyWith _, ?_⟩, ⟨engineNext_busyWith _, ?_⟩, ⟨engineNext_busyWith _, ?_⟩,
    ⟨engineNext_busyWith _, ?_⟩⟩ <;> (unfold Legal; decide)

theorem witness_PlacedWordRunsNext : (Instr.unpk 64#8).wellFormed = true := by decide

/-- Eight bytes fill the word exactly: the total is 64. -/
theorem witness_PackPlacesEachElement :
    (∀ i < (8#8).toNat, (elems [1, 2, 3, 4, 5, 6, 7, 8] 0).elemNi.getLsbD i = false) ∧
      packTotal (elems [1, 2, 3, 4, 5, 6, 7, 8] 0) (8#8).toNat = 64 := by decide

/-- The tag clause at element 0 and at an element that would also exceed; the width clause at T = 72. -/
theorem witness_PackFailsAtFirstBadElement :
    (0 < (2#8).toNat ∧ packTotal (elems [1, 2] 0x1) 0 ≤ 64 ∧ (elems [1, 2] 0x1).elemNi.getLsbD 0 = true) ∧
    (4 < (5#8).toNat ∧ (∀ i < 4, (elems [300, 300, 300, 300, 300] 0x10).elemNi.getLsbD i = false) ∧
      packTotal (elems [300, 300, 300, 300, 300] 0x10) 4 ≤ 64 ∧
      (elems [300, 300, 300, 300, 300] 0x10).elemNi.getLsbD 4 = true) ∧
    (8 < (9#8).toNat ∧ (∀ i < 8, (elems [1, 2, 3, 4, 5, 6, 7, 8, 9] 0).elemNi.getLsbD i = false) ∧
      packTotal (elems [1, 2, 3, 4, 5, 6, 7, 8, 9] 0) 8 ≤ 64 ∧
      (elems [1, 2, 3, 4, 5, 6, 7, 8, 9] 0).elemNi.getLsbD 8 = false ∧
      64 < packTotal (elems [1, 2, 3, 4, 5, 6, 7, 8, 9] 0) 9) := by decide

theorem witness_PackOfNineOrMoreFails : 9 ≤ (9#8).toNat ∧ 9 ≤ (255#8).toNat := by decide

/-- The longest layout, 64 entries of one bit. -/
theorem witness_UnpkExtractsClosedFormFields :
    (64#8).toNat ≤ 64 ∧ (∀ i < (64#8).toNat, (layouts all1 (List.replicate 64 1) 0).layoutNi.getLsbD i = false) ∧
      layoutTotal (layouts all1 (List.replicate 64 1) 0) (64#8).toNat = 64 := by decide

/-- The tag clause at entry 1, with a width that would also exceed; the width clause at T = 65. -/
theorem witness_UnpkFailsAtFirstBadEntry :
    (1 < (2#8).toNat ∧ (2#8).toNat ≤ 64 ∧ (∀ i < 1, (layouts all1 [8, 200] 2).layoutNi.getLsbD i = false) ∧
      layoutTotal (layouts all1 [8, 200] 2) 1 ≤ 64 ∧ (layouts all1 [8, 200] 2).layoutNi.getLsbD 1 = true) ∧
    (1 < (2#8).toNat ∧ (2#8).toNat ≤ 64 ∧ (∀ i < 1, (layouts all1 [60, 5] 0).layoutNi.getLsbD i = false) ∧
      layoutTotal (layouts all1 [60, 5] 0) 1 ≤ 64 ∧ (layouts all1 [60, 5] 0).layoutNi.getLsbD 1 = false ∧
      layoutTotal (layouts all1 [60, 5] 0) 2 = 65) := by decide

/-- A masked pack of a negative element and an unmasked one of elements that are not negative, with their layouts. -/
theorem witness_UnpackUndoesPack :
    (∃ t, exec (.pack true 2#8) (elems [1, all1] 0) = .next t ∧ t.statusFail = false ∧
      (layouts t.result [8, 8] 0).opa = t.result ∧
      ∀ i < (2#8).toNat, (layouts t.result [8, 8] 0).layoutNi.getLsbD i = false ∧
        (layoutAt (layouts t.result [8, 8] 0) i).2 = packWidth (elems [1, all1] 0) i) ∧
    (∃ t, exec (.pack false 2#8) (elems [300, 5] 0) = .next t ∧ t.statusFail = false ∧
      (∀ i < (2#8).toNat, 0 ≤ (elemAt (elems [300, 5] 0) i).2) ∧
      (layouts t.result [16, 8] 0).opa = t.result ∧
      ∀ i < (2#8).toNat, (layouts t.result [16, 8] 0).layoutNi.getLsbD i = false ∧
        (layoutAt (layouts t.result [16, 8] 0) i).2 = packWidth (elems [300, 5] 0) i) :=
  ⟨⟨_, rfl, by decide, by decide, by decide⟩, ⟨_, rfl, by decide, by decide, by decide, by decide⟩⟩

theorem witness_GetbAboveTheWordReadsTheSign :
    64 ≤ (ops all1 64 0).opb.toInt ∧ 64 ≤ (ops 5 0x7FFFFFFFFFFFFFFF 0).opb.toInt := by decide

/-- The last index inside the word. -/
theorem witness_GetbReadsTheBitSetbSet :
    ∃ t, exec (.setb true false false) (ops 0 64 0) = .next t ∧ t.statusFail = false ∧ (ops 0 64 0).opb.toInt ≤ 64 ∧
      (ops t.result 64 0).opa = t.result ∧ (ops t.result 64 0).opb = (ops 0 64 0).opb :=
  ⟨_, rfl, by decide, by decide, by decide, by decide⟩

theorem witness_LegacyClearTwiceRestores :
    ∃ t, exec (.setb false false false) (ops 2 1 0) = .next t ∧ t.statusFail = false ∧
      (ops t.result 1 0).opa = t.result ∧ (ops t.result 1 0).opb = (ops 2 1 0).opb :=
  ⟨_, rfl, by decide, by decide, by decide⟩

theorem witness_CorrectedClearIsIdempotent :
    ∃ t, exec (.setb false false true) (ops 3 1 0) = .next t ∧ t.statusFail = false ∧
      (ops t.result 1 0).opa = t.result ∧ (ops t.result 1 0).opb = (ops 3 1 0).opb :=
  ⟨_, rfl, by decide, by decide, by decide⟩

theorem witness_CutbFromMattersOnlyUnderTrueRange :
    (∃ s' t', exec (.cutb false) (ops 0xB6 3 6) = .next s' ∧ exec (.cutb false) (ops 0xB6 1 6) = .next t' ∧
      s'.statusFail = false ∧ t'.statusFail = false) ∧ (ops 0xB6 1 6).opb = 1#64 :=
  ⟨⟨_, _, rfl, rfl, by decide, by decide⟩, rfl⟩

/-- The offsets beside OUT and STR for the commands that write them, and OUT for one that does not. -/
theorem witness_WindowFrameOfEveryCommand :
    (∃ t, exec .unpkDflt State.reset = .next t) ∧ ¬(0x200 ≤ 0x180 ∧ 0x180 < 0x400) ∧
    (∃ t, exec .strf State.reset = .next t) ∧ ¬(0x140 ≤ 0x138 ∧ 0x138 < 0x188) ∧ ¬(0x140 ≤ 0x188 ∧ 0x188 < 0x188) ∧
    (∃ t, exec .clsv State.reset = .next t) ∧ Instr.clsv.opcode ≠ 0x8#4 ∧ Instr.clsv.opcode ≠ 0x9#4 :=
  ⟨⟨_, rfl⟩, by decide, ⟨_, rfl⟩, by decide, by decide, ⟨_, rfl⟩, by decide, by decide⟩

/-- A completion with an error and one without. -/
theorem witness_OneEventExactlyOnError :
    (EngineNext (busyWith 0x15#64) 0x15#64 ∧ ∃ t, step (busyWith 0x15#64) = .next t ∧ t.statusErr = 2#4) ∧
    (EngineNext (busyWith 0x1#64) 0x1#64 ∧ ∃ t, step (busyWith 0x1#64) = .next t ∧ t.statusErr = 0#4) :=
  ⟨⟨engineNext_busyWith _, _, rfl, by decide⟩, ⟨engineNext_busyWith _, _, rfl, by decide⟩⟩

theorem witness_TotalCommandsNeverFail :
    ∀ i ∈ [Instr.clsv, .clsb, .mask, .strf], i = .clsv ∨ i = .clsb ∨ i = .mask ∨ i = .strf := by decide

/-- Each code from each opcode that raises it. -/
theorem witness_ErrorCodesByOpcode :
    (∃ t, exec (.getb false false) (ops 5 65 0) = .next t ∧ t.statusErr = 1#4) ∧
    (∃ t, exec (.setb true false false) (ops 5 0 0) = .next t ∧ t.statusErr = 2#4) ∧
    (∃ t, exec (.cutb false) (ops 5 1 9) = .next t ∧ t.statusErr = 3#4) ∧
    (∃ t, exec (.cutb false) (ops 5 0 3) = .next t ∧ t.statusErr = 4#4) ∧
    (∃ t, exec (.cutb true) (ops 5 3 3) = .next t ∧ t.statusErr = 5#4) ∧
    (∃ t, exec (.pack false 1#8) (elems [] 1) = .next t ∧ t.statusErr = 6#4) ∧
    (∃ t, exec (.unpk 1#8) (layouts 0 [65] 0) = .next t ∧ t.statusErr = 7#4) :=
  ⟨⟨_, rfl, by decide⟩, ⟨_, rfl, by decide⟩, ⟨_, rfl, by decide⟩, ⟨_, rfl, by decide⟩, ⟨_, rfl, by decide⟩,
    ⟨_, rfl, by decide⟩, ⟨_, rfl, by decide⟩⟩

theorem witness_OutputsDependOnInputsOnly :
    SameInputs (ops 5 1 2) { ops 5 1 2 with result := 9, statusErr := 3#4, lat := 7 } :=
  ⟨rfl, rfl, rfl, rfl, rfl, rfl, rfl⟩

theorem witness_IdleCmdWriteIsAccepted : (ops 5 0 0).inReset = false ∧ (ops 5 0 0).pend = none := ⟨rfl, rfl⟩

/-- Both ends of the input registers, and offsets just beyond them. -/
theorem witness_WritesWhileBusyAreRefused :
    (busyWith 0x1#64).inReset = false ∧ (busyWith 0x1#64).pend ≠ none ∧
    InputOffset 0x018 ∧ InputOffset 0x048 ∧ InputOffset 0x080 ∧ InputOffset 0x138 ∧
    ¬InputOffset 0x030 ∧ ¬InputOffset 0x050 ∧ ¬InputOffset 0x140 :=
  ⟨rfl, by decide, by unfold InputOffset; decide⟩

theorem witness_InputWriteReadsBack :
    State.reset.inReset = false ∧ State.reset.pend = none ∧
    InputOffset 0x018 ∧ InputOffset 0x040 ∧ InputOffset 0x0F8 ∧ InputOffset 0x100 ∧ InputOffset 0x138 :=
  ⟨rfl, rfl, by unfold InputOffset; decide⟩

/-- The ends of both unmapped ranges, and writes to ID and to the ends of STR_W and OUT. -/
theorem witness_ReadOnlyAndUnmappedOffsets :
    State.reset.inReset = false ∧
    (∀ off ∈ [0x050, 0x078, 0x188, 0x1F8], UnmappedOffset off) ∧
    ∀ off ∈ [0x000, 0x030, 0x140, 0x180, 0x200, 0x3F8], off % 8 = 0 ∧ off ≠ 0x008 ∧ off ≠ 0x010 ∧ ¬InputOffset off :=
  ⟨rfl, by unfold UnmappedOffset; decide, by unfold InputOffset; decide⟩

theorem witness_WindowReadsTheRegisters : (ops 1 2 3).inReset = false := rfl

theorem witness_StatusReadsItsFields : (busyWith 0x1#64).inReset = false := rfl

theorem witness_UnadmittedAccessHasNoEffect : ((4 : Nat) ≠ 8 ∨ 0x018 % 8 ≠ 0) ∧ ((8 : Nat) ≠ 8 ∨ 0x01C % 8 ≠ 0) := by decide

/-- A read of the last register while idle, and one before a pending completion. -/
theorem witness_HostReadStepReturnsValue :
    0x3F8 < 0x400 ∧ HostNext (asked [.read (Config.base + 0x3F8) 8]) (.read (Config.base + 0x3F8) 8) [] ∧
    HostNext (busyAsked [.read (Config.base + 0x010) 8]) (.read (Config.base + 0x010) 8) [] :=
  ⟨by decide, ⟨rfl, .inl rfl⟩, ⟨rfl, .inr (by decide)⟩⟩

theorem witness_HostWriteStepWrites :
    0x008 < 0x400 ∧ HostNext (asked [.write (Config.base + 0x008) 8 1#64]) (.write (Config.base + 0x008) 8 1#64) [] :=
  ⟨by decide, rfl, .inl rfl⟩

/-- Both branches: idle, and busy. -/
theorem witness_WaitPollsUntilIdle :
    (asked [.wait]).inReset = false ∧ HostNext (asked [.wait]) .wait [] ∧
    (busyAsked [.wait]).inReset = false ∧ HostNext (busyAsked [.wait]) .wait [] :=
  ⟨rfl, ⟨rfl, .inl rfl⟩, rfl, ⟨rfl, .inr (by decide)⟩⟩

/-- Reset asserted with a command pending, and released. -/
theorem witness_ResetInputHoldsTheBlock :
    HostNext (busyAsked [.assertReset]) .assertReset [] ∧
    ({ asked [.releaseReset] with inReset := true }).inReset = true ∧
    HostNext { asked [.releaseReset] with inReset := true } .releaseReset [] :=
  ⟨⟨rfl, .inr (by decide)⟩, rfl, ⟨rfl, .inl rfl⟩⟩

/-- The state of P4 after its step 2: an illegal word just completed. -/
theorem witness_EveryStepKeepsLegalState :
    LegalState (illegalCommand 0xA#64 (busyWith 0xA#64)) ∧
      step (illegalCommand 0xA#64 (busyWith 0xA#64)) = .next (illegalCommand 0xA#64 (busyWith 0xA#64)) :=
  ⟨{ err_le := by decide
     fail_err := by decide
     report := by decide
     busy_done := by decide
     count_le := by decide
     events := by decide
     reset_held := by decide }, rfl⟩

/-- Ordinary accesses of every kind, at the ends of the window. -/
theorem witness_PendingCommandCompletes :
    (busyAsked [.read Config.base 8, .write (Config.base + 0x3FF) 1 0#64, .wait]).pend = some 0x1#64 ∧
    ∀ a ∈ (busyAsked [.read Config.base 8, .write (Config.base + 0x3FF) 1 0#64, .wait]).host, a.Ordinary := by
  refine ⟨rfl, ?_⟩
  simp [busyAsked, HostOp.Ordinary]

/-- The command stays pending through one poll, and completes in the engine's turn. -/
theorem witness_PendingCommandFreezesRegisters :
    (∃ t, step (busyAsked [.wait]) = .next t ∧ t.pend = some 0x1#64) ∧
      ∃ t, step (busyWith 0x1#64) = .next t ∧ t.pend = none :=
  ⟨⟨_, rfl, rfl⟩, ⟨_, rfl, rfl⟩⟩

theorem witness_DiagLogOnlyGrows : ∃ t, step (busyWith 0xA#64) = .next t ∧ t.diaglog ≠ (busyWith 0xA#64).diaglog :=
  ⟨_, rfl, by decide⟩

/-- Cleared by the reset input, and by a write of STATUS. -/
theorem witness_ProtoErrIsSticky :
    (∃ t, step { asked [.assertReset] with statusProto := true } = .next t ∧ t.statusProto = false) ∧
    ∃ t, step { asked [.write (Config.base + 0x010) 8 0x100#64] with statusProto := true } = .next t ∧
      t.statusProto = false := by
  refine ⟨⟨_, rfl, rfl⟩, ?_⟩
  rw [step_of_hostNext (a := .write (Config.base + 0x010) 8 0x100#64) (rest := []) ⟨rfl, .inl rfl⟩]
  simp only [hostStep, windowOffset_base_add (show 0x010 < 0x400 by decide)]
  exact ⟨_, rfl, rfl⟩

theorem witness_FinalStateStays : State.reset.Final := ⟨rfl, rfl⟩

end Sys2Proof.Tests
end

/-! PROOFS of the family 00_scope.md: GETB above the word (rule R8), UNPK.DFLT (rule R6) and noninterference (rule R14). The
facts about the shared operations come first, each obligation after the facts it needs. -/

namespace Sys2Proof.Machine

open Sys2Proof

/-! ### GETB without STRICT (rule R121) -/

/-- Whatever the index check says, GETB without STRICT gives the bit and does not fail. -/
theorem getbEffects_lenient (tb : Bool) (num index : Int) :
    (getbEffects false tb num index).result = word (getbBit num index) ∧
      (getbEffects false tb num index).failed = false := by
  rw [getbEffects]
  cases idxcheck num index tb with
  | none => exact ⟨rfl, rfl⟩
  | some e => exact ⟨rfl, rfl⟩

/-- At a positive index GETB's bit is bit index-1 of the integer. -/
theorem getbBit_of_pos {num index : Int} (h : 1 ≤ index) :
    getbBit num index = if zbit num (index - 1).toNat then 1 else 0 := by
  rw [getbBit, if_pos h, zand_shr_one]

/-- From bit 63 on, every bit of sint(x) is the sign of x (rule R8). -/
theorem zbit_sint_of_ge (x : Word) {i : Nat} (h : 63 ≤ i) : zbit (sint x) i = x.msb := by
  rw [zbit_sint]
  split_ifs with hi
  · obtain rfl : i = 63 := by omega
    exact (BitVec.msb_eq_getLsbD_last x).symm
  · rfl

/-- Settles O13: index-1 is at least 63, where the operand read as an integer has only copies of its sign. -/
theorem getbAboveTheWordReadsTheSign : Obligations.GetbAboveTheWordReadsTheSign := by
  intro tb s h
  obtain ⟨hresult, hfailed⟩ := getbEffects_lenient tb (opaInt s) (opbInt s)
  have hbit : getbBit (opaInt s) (opbInt s) = if s.opa.msb then 1 else 0 := by
    have hindex : 64 ≤ opbInt s := h
    rw [getbBit_of_pos (by omega), opaInt, zbit_sint_of_ge _ (by omega)]
  refine ⟨_, exec_eq_retire _ _, hfailed, ?_⟩
  rw [retire_result, effectsOf, hresult, hbit]
  cases s.opa.msb <;> rfl

/-! ### One field of UNPK, bit by bit (rule R110, rule R161) -/

/-- The mask of a canonical width has a 1 exactly in its `w` most significant bits (rule R110). -/
theorem getLsbD_mk_bits (w : Width) {b : Nat} (h : b < 64) : (mk w.bits).getLsbD b = decide (64 - w.bits ≤ b) := by
  have hcanon : (w.bits : Int) = 8 ∨ (w.bits : Int) = 16 ∨ (w.bits : Int) = 32 ∨ (w.bits : Int) = 64 :=
    mod_cast w.bits_cases
  rw [mk, if_pos hcanon, getLsbD_word, zbit_shl, zbit_lowMask, Int.toNat_natCast, Bool.eq_iff_iff]
  simp only [Bool.and_eq_true, decide_eq_true_eq]
  omega

/-- Bit j of a field is bit `c - d + j` of the pattern where that bit lies below the cursor `c` and inside the canonical
width of the declared width `d`, and 0 elsewhere (rule R161). -/
theorem testBit_unpackField (u : Nat) {c d : Nat} (hc : c ≤ 64) (j : Nat) :
    (unpackField u c d).testBit j =
      (u.testBit (c - d + j) && decide (c - d + j < c ∧ c ≤ c - d + j + (cb d).bits)) := by
  have hw := (cb (d : Int)).bits_le
  rw [unpackField, Nat.testBit_shiftRight, Nat.testBit_and, Nat.testBit_shiftRight, testBit_uint]
  congr 1
  rcases Nat.lt_or_ge (64 - c + (c - d + j)) 64 with hb | hb
  · rw [getLsbD_mk_bits _ hb, decide_eq_decide]
    omega
  · rw [BitVec.getLsbD_of_ge _ _ hb, eq_comm, decide_eq_false_iff_not]
    omega

/-- The field of a declared byte is the byte below the cursor. -/
theorem word_unpackField_byte (x : Word) {c : Nat} (hc : c ≤ 64) (h8 : 8 ≤ c) :
    word (unpackField (uint x) c 8 : Nat) = (x >>> (c - 8)) &&& 0xFF#64 := by
  apply BitVec.eq_of_getLsbD_eq
  intro j hj
  have hcb : (cb (8 : Nat)).bits = 8 := rfl
  have hff : (0xFF#64 : Word) = BitVec.setWidth 64 (BitVec.allOnes 8) := rfl
  rw [getLsbD_word, ← Int.ofNat_eq_natCast, zbit_ofNat, testBit_unpackField _ hc, testBit_uint, hcb, hff,
    BitVec.getLsbD_and, BitVec.getLsbD_ushiftRight, BitVec.getLsbD_setWidth, BitVec.getLsbD_allOnes]
  simp only [hj, decide_true, Bool.true_and]
  congr 1
  rw [decide_eq_decide]
  omega

/-! ### UNPK with the default layout (rule R6, rule R161) -/

/-- A success of UNPK leaves the state of `okAfter` but for COUNT and OUT (rule R160). -/
@[simp] theorem retire_fieldsOk (op : BitVec 4) (fields : List Nat) (s : State) :
    retire op (fieldsOk fields) s = { okAfter s op 0#64 with
      count := BitVec.ofNat 7 fields.length
      out := Vector.ofFn fun i => word (fields.getD i.val 0 : Nat) } := by
  simp [retire, finish, writeOutputs, fieldsOk, okAfter, diagEvents, errCode]

/-- The entry `i` of the default layout is a byte, untagged, and stands after `8 * i` bits. -/
theorem defaultInputs_at : ∀ i, ∀ h : i < defaultInputs.length,
    defaultInputs[i] = (false, 8) ∧ declaredSum (defaultInputs.take i) = 8 * i := by decide

/-- UNPK with the default layout succeeds with the eight bytes of the pattern, most significant first. -/
theorem unpackEffects_defaultInputs (x : Word) :
    ∃ fields, unpackEffects (uint x) defaultInputs = fieldsOk fields ∧ fields.length = 8 ∧
      ∀ i < 8, word (fields.getD i 0 : Nat) = (x >>> (56 - 8 * i)) &&& 0xFF#64 := by
  obtain ⟨fields, hloop, hlen, hfield⟩ :=
    unpackLoop_of_fits (uint x) defaultInputs 0 64 (by decide) (by decide)
  refine ⟨fields, by rw [unpackEffects, hloop], hlen, fun i hi => ?_⟩
  obtain ⟨hentry, hsum⟩ := defaultInputs_at i hi
  rw [hfield i hi, hentry, hsum, word_unpackField_byte x (by omega) (by omega), Nat.sub_right_comm]

/-- The command word of UNPK.DFLT: its row of rule R71 leaves no other bit open. -/
theorem decode_eq_unpkDflt_iff (c : Word) : decode c = .ok .unpkDflt ↔ c = 0x18#64 := by
  constructor
  · intro h
    obtain ⟨hres, hm3, hop, hmodes, hcnt, hm0⟩ := decode_eq_ok h
    have hbit : (fieldModes c).getLsbD 0 = true := by
      rw [fieldModes, BitVec.getLsbD_extractLsb']
      exact hm0
    have hone : ∀ m : BitVec 3, m &&& ~~~0b001#3 = 0#3 → m.getLsbD 0 = true → m = 1#3 := by decide
    have hzero : fieldCnt c = 0#8 := BitVec.eq_of_toNat_eq (Nat.le_zero.1 hcnt)
    exact eq_of_fields hop (hone _ hmodes hbit) hm3 hzero hres
  · rintro rfl
    decide

/-- Settles O23: the default layout is untagged and fits, and entry `i` is the byte below the cursor `64 - 8 * i`. -/
theorem unpkDfltSplitsIntoBytes : Obligations.UnpkDfltSplitsIntoBytes := by
  refine ⟨decode_eq_unpkDflt_iff, fun s => ?_⟩
  obtain ⟨fields, heffects, hlen, hbyte⟩ := unpackEffects_defaultInputs s.opa
  refine ⟨Vector.ofFn fun i => word (fields.getD i.val 0 : Nat), fun i hi => ?_, ?_⟩
  · rw [Vector.getElem_ofFn]
    split_ifs with h8
    · exact hbyte i h8
    · have hbeyond : fields.length ≤ i := by omega
      rw [List.getD_eq_default _ _ hbeyond]
      rfl
  · rw [exec_eq_retire, effectsOf, heffects, retire_fieldsOk, hlen]
    rfl

/-! ### What a command's outputs depend on (rule R14, rule R57) -/

/-- The effects of a command are a function of the input registers and buffers. -/
theorem effectsOf_congr {s t : State} (h : SameInputs s t) (i : Instr) : effectsOf i s = effectsOf i t := by
  obtain ⟨hopa, hopb, hopc, helemNi, hlayoutNi, helem, hlayout⟩ := h
  have helems : elemAt s = elemAt t := by
    funext n
    rw [elemAt, elemAt, helemNi, helem]
  have hlayouts : layoutAt s = layoutAt t := by
    funext n
    rw [layoutAt, layoutAt, hlayoutNi, hlayout]
  cases i <;> simp only [effectsOf, opaInt, opbInt, opcInt, packInputs, layoutInputs,
    hopa, hopb, hopc, helems, hlayouts]

/-- UNPK writes OUT whether it succeeds or fails (rule R160). -/
theorem unpackEffects_out (u : Nat) (l : List (Bool × Nat)) : ∃ v, (unpackEffects u l).out = some v := by
  rw [unpackEffects]
  split <;> exact ⟨_, rfl⟩

/-- Both commands of opcode 8 write OUT. -/
theorem effectsOf_out {i : Instr} (hop : i.opcode = 0x8#4) (s : State) : ∃ v, (effectsOf i s).out = some v := by
  cases i with
  | unpk cnt => exact unpackEffects_out _ _
  | unpkDflt => exact unpackEffects_out _ _
  | _ => simp [Instr.opcode] at hop

/-- The command of opcode 9 writes STR. -/
theorem effectsOf_str {i : Instr} (hop : i.opcode = 0x9#4) (s : State) : ∃ v, (effectsOf i s).str = some v := by
  cases i with
  | strf => exact ⟨_, rfl⟩
  | _ => simp [Instr.opcode] at hop

/-- Settles O35: both completions retire with the same effects, which decide every output they write. -/
theorem outputsDependOnInputsOnly : Obligations.OutputsDependOnInputsOnly := by
  intro i s t h
  have heffects := effectsOf_congr h i
  refine ⟨retire i.opcode (effectsOf i s) s, retire i.opcode (effectsOf i s) t,
    diagEvents i.opcode (effectsOf i s).err, exec_eq_retire i s, ?_, rfl, rfl, rfl, rfl, rfl, rfl, rfl, ?_, ?_⟩
  · rw [heffects]
    exact exec_eq_retire i t
  · intro hop
    obtain ⟨v, hv⟩ := effectsOf_out hop s
    simp [hv]
  · intro hop
    obtain ⟨v, hv⟩ := effectsOf_str hop s
    simp [hv]

end Sys2Proof.Machine

/-! PROOFS of the family 10_state.md: the registers of the window (rules R21 to R33), the frame of every command (rule R57) and
the legal values of the status fields (rule R24). The facts about the window and about completions come first, each
obligation after the facts it needs. -/

namespace Sys2Proof.Machine

open Sys2Proof

/-! ### The map, by registers (rule R21) -/

/-- Two registers at the same offset are the same register. -/
theorem offset_injective {r r' : WinReg} (h : r.offset = r'.offset) : r = r' := by
  have hat := regAt_offset r
  rw [h, regAt_offset] at hat
  exact (Option.some.inj hat).symm

/-- A read at a register's offset outside reset reads that register (rule R52). -/
theorem memRead_offset {s : State} (hr : s.inReset = false) (r : WinReg) : memRead s r.offset 8 = readReg s r :=
  memRead_of_reg hr (offset_aligned r).1 (regAt_offset r)

/-- A read where no register stands is 0 (rule R21, rule R54). -/
theorem memRead_of_no_reg {off : Nat} (h : ∀ r : WinReg, r.offset ≠ off) (s : State) : memRead s off 8 = 0#64 := by
  by_cases ha : off % 8 = 0
  · cases hat : regAt off with
    | none => exact memRead_eq_zero (.inr (.inr (.inr hat)))
    | some r => exact absurd (offset_of_regAt ha hat) (h r)
  · exact memRead_eq_zero (.inr (.inr (.inl ha)))

/-- A read sees only the reset input and the register at its offset, if there is one. -/
theorem memRead_congr {s t : State} {off : Nat} (hin : t.inReset = s.inReset)
    (h : ∀ r : WinReg, r.offset = off → readReg t r = readReg s r) : memRead t off 8 = memRead s off 8 := by
  by_cases hreg : ∃ r : WinReg, r.offset = off
  · obtain ⟨r, rfl⟩ := hreg
    cases hr : s.inReset with
    | false => rw [memRead_offset hr, memRead_offset (hin.trans hr), h r rfl]
    | true => rw [memRead_eq_zero (.inl hr), memRead_eq_zero (.inl (hin.trans hr))]
  · rw [memRead_of_no_reg (fun r hr => hreg ⟨r, hr⟩), memRead_of_no_reg (fun r hr => hreg ⟨r, hr⟩)]

/-- A write at a register's offset has that register's effect while idle (rule R52). -/
theorem memWrite_offset_of_idle {s : State} (hr : s.inReset = false) (hp : s.pend = none) (r : WinReg) (v : Word) :
    memWrite r.offset 8 v s = writeReg r v s := by
  simp [memWrite, hr, (offset_aligned r).1, busy, hp]

/-- The input offsets are those of the registers frozen while busy, CMD apart (rule R21, rule R56). -/
theorem inputOffset_offset_iff (r : WinReg) : InputOffset r.offset ↔ r.frozenWhileBusy = true ∧ r ≠ .cmd := by
  cases r <;> simp only [InputOffset, WinReg.offset, WinReg.frozenWhileBusy] <;> simp <;> omega

/-- Every input offset is that of a register (rule R21). -/
theorem exists_reg_of_inputOffset {off : Nat} (h : InputOffset off) : ∃ r : WinReg, r.offset = off := by
  rcases h with rfl | rfl | rfl | rfl | rfl | ⟨hlo, hhi, ha⟩
  · exact ⟨.opa, rfl⟩
  · exact ⟨.opb, rfl⟩
  · exact ⟨.opc, rfl⟩
  · exact ⟨.elemNi, rfl⟩
  · exact ⟨.layoutNi, rfl⟩
  · rcases Nat.lt_or_ge off 0x100 with hlt | hge
    · exact ⟨.elem ⟨(off - 0x080) / 8, by omega⟩, by simp only [WinReg.offset]; omega⟩
    · exact ⟨.layoutW ⟨(off - 0x100) / 8, by omega⟩, by simp only [WinReg.offset]; omega⟩

/-- No register stands at an unmapped offset (rule R21). -/
theorem offset_ne_of_unmapped {off : Nat} (h : UnmappedOffset off) (r : WinReg) : r.offset ≠ off := by
  obtain ⟨-, h⟩ := h
  cases r <;> simp only [WinReg.offset] <;> omega

/-! ### What the registers read (rules R21 to R33) -/

/-- Entry `i` of a vector, in the form without a proof of the bound. -/
theorem getD_eq_getElem {n : Nat} (x : Vector Byte n) {i : Nat} (h : i < n) : x.getD i 0#8 = x[i] := by
  simp [Vector.getD, h]

/-- Settles O40: each clause is the read of a register at its own offset, byte by byte for LAYOUT_W and STR_W. -/
theorem windowReadsTheRegisters : Obligations.WindowReadsTheRegisters := by
  intro s hr
  have hread := memRead_offset hr
  refine ⟨hread .opa, hread .opb, hread .opc, hread .result, ?_, ?_, hread .layoutNi, fun i => hread (.elem i), ?_, ?_,
    fun i => hread (.out i)⟩
  · rw [show memRead s 0x038 8 = s.count.setWidth 64 from hread .count]
    exact BitVec.toNat_setWidth_of_le (by decide)
  · rw [show memRead s 0x040 8 = s.elemNi.setWidth 64 from hread .elemNi]
    exact BitVec.toNat_setWidth_of_le (by decide)
  · intro j k
    have hword : memRead s (0x100 + 8 * j) 8 = wordOfBytes fun k => s.layout.getD (8 * j + k) 0#8 :=
      hread (.layoutW j)
    rw [hword, ← getD_eq_getElem]
    exact byteOf_wordOfBytes _ k k.isLt
  · intro j k
    have hword : memRead s (0x140 + 8 * j) 8 = wordOfBytes fun k => s.str.getD (8 * j + k) 0#8 := hread (.strW j)
    rw [hword, ← getD_eq_getElem]
    exact byteOf_wordOfBytes _ k k.isLt

/-- The bits of STATUS, read off the fields that its word joins, one bit at a time (rule R24). -/
theorem getLsbD_statusWord (s : State) {b : Nat} (hb : b < 64) : (statusWord s).getLsbD b =
    if b = 0 then s.pend.isSome
    else if b = 1 then s.statusDone
    else if b = 2 then s.statusFail
    else if 4 ≤ b ∧ b ≤ 7 then s.statusErr.getLsbD (b - 4)
    else if b = 8 then s.statusProto
    else if 12 ≤ b ∧ b ≤ 15 then s.statusLastOp.getLsbD (b - 12)
    else false := by
  simp only [statusWord, BitVec.getLsbD_append, busy]
  interval_cases b <;> simp

/-- Settles O41: offset 0x010 is STATUS, whose word has these bits. -/
theorem statusReadsItsFields : Obligations.StatusReadsItsFields := by
  intro s hr b hb
  rw [show memRead s 0x010 8 = statusWord s from memRead_offset hr .status]
  exact getLsbD_statusWord s hb

/-- In the reset state every register reads 0 but ID (rule R200). -/
theorem readReg_reset {r : WinReg} (h : r ≠ .id) : readReg State.reset r = 0#64 := by
  cases r with
  | id => exact absurd rfl h
  | elem i => simp [readReg, State.reset]
  | layoutW j => revert j; decide
  | strW j => revert j; decide
  | out i => simp [readReg, State.reset]
  | _ => rfl

/-- Settles O47: ID is the register at offset 0, and an offset without a register reads 0 too. -/
theorem resetStateReadsZero : Obligations.ResetStateReadsZero := by
  refine ⟨rfl, rfl, fun off => ?_⟩
  split_ifs with h0
  · subst h0
    exact memRead_offset rfl .id
  · by_cases hreg : ∃ r : WinReg, r.offset = off
    · obtain ⟨r, rfl⟩ := hreg
      rw [memRead_offset rfl, readReg_reset]
      rintro rfl
      exact h0 rfl
    · exact memRead_of_no_reg (fun r hr => hreg ⟨r, hr⟩) _

/-! ### What a write changes (rule R52) -/

/-- A write of a register that is neither CMD, STATUS nor an input changes nothing (rule R21, rule R52). -/
theorem writeReg_of_readOnly {r : WinReg} (hcmd : r ≠ .cmd) (hstatus : r ≠ .status) (hin : ¬InputOffset r.offset)
    (v : Word) (s : State) : writeReg r v s = s := by
  have hfrozen : r.frozenWhileBusy = false := by simpa [inputOffset_offset_iff, hcmd] using hin
  cases r with
  | status => exact absurd rfl hstatus
  | id | result | count | strW | out => rfl
  | _ => exact Bool.noConfusion hfrozen

/-- Settles O39: no register stands at an unmapped offset, and a register that is neither CMD, STATUS nor an input is not frozen
while busy and ignores the write. -/
theorem readOnlyAndUnmappedOffsets : Obligations.ReadOnlyAndUnmappedOffsets := by
  intro s v hr
  refine ⟨memRead_offset hr .id, memRead_offset hr .cmd,
    fun off hoff => memRead_of_no_reg (offset_ne_of_unmapped hoff) s, fun off ha hcmd hstatus hin => ?_⟩
  rcases memWrite_cases off 8 v s with ⟨h, -⟩ | ⟨r, hat, -, -, -, h⟩
  · exact h
  obtain rfl := offset_of_regAt ha hat
  have hnotcmd : r ≠ .cmd := fun h => hcmd (congrArg WinReg.offset h)
  have hnotstatus : r ≠ .status := fun h => hstatus (congrArg WinReg.offset h)
  rcases h with ⟨-, -, hfrozen⟩ | ⟨h, -⟩
  · exact absurd ((inputOffset_offset_iff r).2 ⟨hfrozen, hnotcmd⟩) hin
  · rw [h, writeReg_of_readOnly hnotcmd hnotstatus hin]

/-- A word depends on the eight bytes it is made of. -/
theorem wordOfBytes_congr {b b' : Nat → Byte} (h : ∀ k < 8, b k = b' k) : wordOfBytes b = wordOfBytes b' := by
  simp only [wordOfBytes, h 0 (by decide), h 1 (by decide), h 2 (by decide), h 3 (by decide), h 4 (by decide),
    h 5 (by decide), h 6 (by decide), h 7 (by decide)]

/-- The low 16 bits of a word, as ELEM_NI keeps and returns them (rule R28). -/
theorem setWidth_setWidth_sixteen (v : Word) : (v.setWidth 16).setWidth 64 = v &&& 0xFFFF#64 := by
  apply BitVec.eq_of_getLsbD_eq
  intro i hi
  have hmask : (0xFFFF#64 : Word) = BitVec.setWidth 64 (BitVec.allOnes 16) := rfl
  rw [hmask, BitVec.getLsbD_and]
  simp only [BitVec.getLsbD_setWidth, BitVec.getLsbD_allOnes, hi, decide_true, Bool.true_and]
  exact Bool.and_comm _ _

/-- A write of LAYOUT_W reads back: its bytes are the eight entries (rule R31). -/
theorem wordOfBytes_layoutWrite (l : Vector Byte 64) (j : Fin 8) (v : Word) :
    (wordOfBytes fun k => (layoutWrite l j v).getD (8 * j + k) 0#8) = v := by
  calc (wordOfBytes fun k => (layoutWrite l j v).getD (8 * j + k) 0#8)
      = wordOfBytes (byteOf v) := wordOfBytes_congr fun k hk => by
        rw [layoutWrite_getD _ _ _ _ (by omega), if_pos (by omega), Nat.mul_add_mod, Nat.mod_eq_of_lt hk]
    _ = v := wordOfBytes_byteOf v

/-- An input register reads back what was written, ELEM_NI its low 16 bits (rule R52, rule R28). -/
theorem readReg_writeReg_same {r : WinReg} (hin : InputOffset r.offset) (v : Word) (s : State) :
    readReg (writeReg r v s) r = if r.offset = 0x040 then v &&& 0xFFFF#64 else v := by
  obtain ⟨hfrozen, hcmd⟩ := (inputOffset_offset_iff r).1 hin
  cases r with
  | cmd => exact absurd rfl hcmd
  | elemNi => exact setWidth_setWidth_sixteen v
  | elem i =>
    rw [if_neg (by simp only [WinReg.offset]; omega)]
    exact Vector.getElem_set_self i.isLt
  | layoutW j =>
    rw [if_neg (by simp only [WinReg.offset]; omega)]
    exact wordOfBytes_layoutWrite s.layout j v
  | opa | opb | opc | layoutNi => rfl
  | _ => exact Bool.noConfusion hfrozen

/-- A write of an input register changes input registers alone (rule R52). -/
theorem writeReg_restore {r : WinReg} (hin : InputOffset r.offset) (v : Word) (s : State) :
    { writeReg r v s with
      opa := s.opa, opb := s.opb, opc := s.opc, elemNi := s.elemNi, layoutNi := s.layoutNi,
      elem := s.elem, layout := s.layout } = s := by
  obtain ⟨hfrozen, hcmd⟩ := (inputOffset_offset_iff r).1 hin
  cases r with
  | cmd => exact absurd rfl hcmd
  | opa | opb | opc | elemNi | layoutNi | elem | layoutW => simp [writeReg]
  | _ => exact Bool.noConfusion hfrozen

/-- Settles O38: the write is the register's write effect, and the offsets of different registers differ. -/
theorem inputWriteReadsBack : Obligations.InputWriteReadsBack := by
  intro s v off hr hp hin
  obtain ⟨r, rfl⟩ := exists_reg_of_inputOffset hin
  obtain ⟨hfrozen, hcmd⟩ := (inputOffset_offset_iff r).1 hin
  have hreset : (memWrite r.offset 8 v s).inReset = s.inReset := by
    obtain ⟨-, -, -, -, -, -, -, -, h, -⟩ := memWrite_frame r.offset 8 v s
    exact h
  have hwrite := memWrite_offset_of_idle hr hp r v
  refine ⟨?_, fun off' hne => memRead_congr hreset ?_, ?_⟩
  · rw [memRead_offset (hreset.trans hr), hwrite, readReg_writeReg_same hin]
  · rintro r' rfl
    have hstatus : r ≠ .status := by
      rintro rfl
      exact Bool.noConfusion hfrozen
    rw [hwrite, readReg_writeReg_of_ne v s hcmd hstatus fun h => hne (congrArg WinReg.offset h)]
  · rw [hwrite]
    exact writeReg_restore hin v s

/-! ### The sticky flag (rule R24) -/

/-- A write takes PROTO_ERR from 1 to 0 only at STATUS, 8 bytes wide, with bit 8 of the value 1 (rule R24). -/
theorem memWrite_clears_proto {off size : Nat} {v : Word} {s : State} (hs : s.statusProto = true)
    (ht : (memWrite off size v s).statusProto = false) : off = 0x010 ∧ size = 8 ∧ v.getLsbD 8 = true := by
  rcases memWrite_cases off size v s with ⟨h, -⟩ | ⟨r, hat, -, hsize, ha, ⟨h, -⟩ | ⟨h, -⟩⟩ <;> rw [h] at ht
  · exact absurd (hs.symm.trans ht) Bool.noConfusion
  · exact Bool.noConfusion ht
  · cases r with
    | status => exact ⟨(offset_of_regAt ha hat).symm, hsize, by simpa [writeReg, hs] using ht⟩
    | _ => simp [writeReg, hs] at ht

/-- Settles O54: a completion leaves PROTO_ERR alone, and so does every host access but a write of STATUS and the reset input. -/
theorem protoErrIsSticky : Obligations.ProtoErrIsSticky := by
  intro s t hstep hs ht
  rcases step_next hstep with ⟨c, i, -, -, hexec⟩ | ⟨c, e, -, -, rfl⟩ | ⟨a, rest, ⟨hhost, -⟩, h⟩ | ⟨-, rfl⟩
  · obtain rfl := exec_next hexec
    exact absurd (hs.symm.trans ht) Bool.noConfusion
  · exact absurd (hs.symm.trans ht) Bool.noConfusion
  · refine ⟨a, rest, hhost, ?_⟩
    rcases hostStep_next h with ⟨off, size, -, -, rfl⟩ | ⟨off, size, v, rfl, -, rfl⟩ | ⟨-, rfl⟩ | ⟨rfl, -⟩ | ⟨rfl, -⟩
    · exact absurd (hs.symm.trans ht) Bool.noConfusion
    · obtain ⟨rfl, rfl, hv⟩ := memWrite_clears_proto (s := arrive rest s) hs ht
      exact .inl ⟨v, rfl, hv⟩
    · exact absurd (hs.symm.trans ht) Bool.noConfusion
    · exact .inr (.inl rfl)
    · exact .inr (.inr rfl)
  · exact absurd (hs.symm.trans ht) Bool.noConfusion

/-! ### Completions (rule R57) -/

/-- Settles O30: every completion is `retire`, which touches none of these fields. -/
theorem everyCommandCompletesAndKeepsInputs : Obligations.EveryCommandCompletesAndKeepsInputs := by
  intro i s
  exact ⟨_, exec_eq_retire i s, rfl, rfl, rfl, ⟨rfl, rfl, rfl, rfl, rfl, rfl, rfl⟩, rfl, rfl, rfl, rfl, rfl, rfl⟩

/-- The effects a command can have: `effectsOf_gives` says that it has no others. -/
inductive Gives (i : Instr) : Effects → Prop
  /-- A success of RESULT alone. -/
  | ok (r : Word) : Gives i (scalarOk r)
  /-- A failure with the sentinel (rule R183). -/
  | fail (e : BitError) : Gives i (scalarFail e)
  /-- The report of GETB at an invalid index (rule R184). -/
  | report (hop : i.opcode = 0x4#4) (e : BitError) (he : e = .indexOutOfRange ∨ e = .indexNotPositive) (r : Word) :
      Gives i (scalarDiag e r)
  /-- The fields of UNPK, no more than a legal layout has entries (rule R160). -/
  | fields (hop : i.opcode = 0x8#4) (l : List Nat) (hl : i.wellFormed = true → l.length ≤ 64) : Gives i (fieldsOk l)
  /-- A failure of UNPK (rule R183). -/
  | fieldsFail (hop : i.opcode = 0x8#4) (e : BitError) : Gives i (fieldsFail e)
  /-- The string of STRF, which STR has room for (rule R170). -/
  | string (hop : i.opcode = 0x9#4) (w : Width) (l : List Byte) (hl : l.length ≤ 72) : Gives i (stringOk w l)

/-- UNPK's loop gives one field per entry (rule R161). -/
theorem length_of_unpackLoop {u : Nat} {l : List (Bool × Nat)} {total cursor : Nat} {fields : List Nat}
    (h : unpackLoop u l total cursor = .ok fields) : fields.length = l.length := by
  induction l generalizing total cursor fields with
  | nil =>
    cases h
    rfl
  | cons p l ih =>
    rw [unpackLoop] at h
    split_ifs at h
    split at h
    · cases h
    · rename_i rest hrest
      cases h
      rw [List.length_cons, List.length_cons, ih hrest]

/-- UNPK fails, or succeeds with one field per entry of its layout (rule R160). -/
theorem unpackEffects_gives {i : Instr} (hop : i.opcode = 0x8#4) (u : Nat) {l : List (Bool × Nat)}
    (hl : i.wellFormed = true → l.length ≤ 64) : Gives i (unpackEffects u l) := by
  rw [unpackEffects]
  cases hloop : unpackLoop u l 0 64 with
  | ok fields => exact .fields hop fields fun hi => (length_of_unpackLoop hloop).trans_le (hl hi)
  | error e => exact .fieldsFail hop e

/-- The rendered string has at most 72 characters (rule R170). -/
theorem length_render_le (num : Int) : (render num).length ≤ 72 := by
  have hw := (cw num).bits_le
  rw [render, List.length_reverse, length_renderLsbFirst]
  omega

/-- Everything a command can give (rule R57). -/
theorem effectsOf_gives (i : Instr) (s : State) : Gives i (effectsOf i s) := by
  cases i with
  | clsv => exact .ok _
  | clsb => exact .ok _
  | mask => exact .ok _
  | getb strict tb =>
    rw [effectsOf, getbEffects]
    rcases idxcheck_cases (opaInt s) (opbInt s) tb with ⟨h, -⟩ | ⟨h, -⟩ | ⟨h, -⟩ <;> rw [h]
    · cases strict
      · exact .report rfl _ (.inl rfl) _
      · exact .fail _
    · cases strict
      · exact .report rfl _ (.inr rfl) _
      · exact .fail _
    · exact .ok _
  | setb st tb andn =>
    rw [effectsOf, setbEffects]
    cases idxcheck (opaInt s) (opbInt s) tb with
    | none => exact .ok _
    | some e => exact .fail e
  | cutb tr =>
    rw [effectsOf, cutbEffects]
    cases cutcheck (opaInt s) (opbInt s) (opcInt s) with
    | none => exact .ok _
    | some e => exact .fail e
  | pack fm cnt =>
    rw [effectsOf, packEffects]
    cases packLoop fm (packInputs s cnt.toNat) 0 0 with
    | ok acc => exact .ok _
    | error e => exact .fail e
  | unpk cnt =>
    refine unpackEffects_gives rfl _ fun hi => ?_
    rw [layoutInputs, List.length_map, List.length_range]
    exact of_decide_eq_true hi
  | unpkDflt => exact unpackEffects_gives rfl _ (l := defaultInputs) fun _ => by decide
  | strf => exact .string rfl _ _ (length_render_le _)

/-- Only the commands of opcode 8 write OUT (rule R33). -/
theorem Gives.out_eq_none {i : Instr} {e : Effects} (h : Gives i e) (hop : i.opcode ≠ 0x8#4) : e.out = none := by
  cases h with
  | fields h8 => exact absurd h8 hop
  | fieldsFail h8 => exact absurd h8 hop
  | _ => rfl

/-- Only the command of opcode 9 writes STR (rule R32). -/
theorem Gives.str_eq_none {i : Instr} {e : Effects} (h : Gives i e) (hop : i.opcode ≠ 0x9#4) : e.str = none := by
  cases h with
  | string h9 => exact absurd h9 hop
  | _ => rfl

/-- Every register but STATUS, RESULT, COUNT and the buffers that a completion writes reads as before it (rule R57). -/
theorem readReg_retire (op : BitVec 4) (e : Effects) (s : State) {r : WinReg} (hstatus : r ≠ .status)
    (hresult : r ≠ .result) (hcount : r ≠ .count) (hout : ∀ i, r = .out i → e.out = none)
    (hstr : ∀ j, r = .strW j → e.str = none) : readReg (retire op e s) r = readReg s r := by
  cases r with
  | status => exact absurd rfl hstatus
  | result => exact absurd rfl hresult
  | count => exact absurd rfl hcount
  | out i => simp [readReg, hout i rfl]
  | strW j => simp [readReg, hstr j rfl]
  | _ => rfl

/-- Settles O31: a register that the command writes stands at an excluded offset. -/
theorem windowFrameOfEveryCommand : Obligations.WindowFrameOfEveryCommand := by
  intro i s t off hexec hstatus hresult hcount hout hstr
  obtain rfl := exec_next hexec
  refine memRead_congr rfl ?_
  rintro r rfl
  refine readReg_retire _ _ _ ?_ ?_ ?_ ?_ ?_
  · rintro rfl
    exact hstatus rfl
  · rintro rfl
    exact hresult rfl
  · rintro rfl
    exact hcount rfl
  · rintro k rfl
    exact (effectsOf_gives i s).out_eq_none fun hop => hout hop (by simp only [WinReg.offset]; omega)
  · rintro k rfl
    exact (effectsOf_gives i s).str_eq_none fun hop => hstr hop (by simp only [WinReg.offset]; omega)

/-! ### The legal values (rule R24, rule R180, rule R200) -/

/-- Settles O49: every field of the invariant stands at a reset value, and the reset input is released. -/
theorem resetStateIsLegal : Obligations.ResetStateIsLegal where
  err_le := Nat.zero_le _
  fail_err := fun h => Bool.noConfusion h
  report := fun h => absurd rfl h
  busy_done := fun _ => rfl
  count_le := Nat.zero_le _
  events := by simp [State.reset]
  reset_held := fun h => Bool.noConfusion h

/-- A command that decodes is well formed (rule R72, rule R74). -/
theorem wellFormed_of_decode {c : Word} {i : Instr} (h : decode c = .ok i) : i.wellFormed = true := by
  obtain ⟨-, -, -, -, hcnt, himm⟩ := decode_eq_ok h
  cases i with
  | pack fm cnt =>
    obtain ⟨-, rfl⟩ := himm
    exact decide_eq_true hcnt
  | unpk cnt =>
    obtain ⟨-, rfl⟩ := himm
    exact decide_eq_true hcnt
  | _ => rfl

/-- The codes of rule R180 are 1 to 8. -/
theorem BitError.code_range (e : BitError) : 1 ≤ e.code.toNat ∧ e.code.toNat ≤ 8 := by
  cases e <;> decide

/-- ERR is at most 8 (rule R24). -/
theorem errCode_le (e : Option BitError) : (errCode e).toNat ≤ 8 := by
  cases e with
  | none => exact Nat.zero_le _
  | some e => exact e.code_range.2

/-- ERR is 0 exactly where there is no error (rule R24, rule R180). -/
theorem errCode_eq_zero_iff (e : Option BitError) : errCode e = 0#4 ↔ e = none := by
  cases e with
  | none => simp [errCode]
  | some e => cases e <;> simp [errCode, BitError.code]

/-- Every event of a completion carries a code of rule R180. -/
theorem err_range_of_mem_diagEvents {op : BitVec 4} {err : Option BitError} {d : DiagEvent}
    (h : d ∈ diagEvents op err) : 1 ≤ d.err.toNat ∧ d.err.toNat ≤ 8 := by
  cases err with
  | none => cases h
  | some e =>
    obtain rfl := List.mem_singleton.1 h
    exact e.code_range

/-- A failure has an error (rule R183). -/
theorem Gives.err_ne_none {i : Instr} {e : Effects} (h : Gives i e) (hf : e.failed = true) : e.err ≠ none := by
  cases h with
  | fail e => exact Option.some_ne_none e
  | fieldsFail hop e => exact Option.some_ne_none e
  | _ => exact Bool.noConfusion hf

/-- An error without a failure is GETB's report of an invalid index (rule R184). -/
theorem Gives.report_cases {i : Instr} {e : Effects} (h : Gives i e) (he : e.err ≠ none)
    (hf : e.failed = false) :
    i.opcode = 0x4#4 ∧ (errCode e.err = 1#4 ∨ errCode e.err = 2#4) := by
  cases h with
  | report hop e hindex r => exact ⟨hop, by rcases hindex with rfl | rfl <;> simp [scalarDiag, errCode, BitError.code]⟩
  | ok r => exact absurd rfl he
  | fields hop l hl => exact absurd rfl he
  | string hop w l hl => exact absurd rfl he
  | fail e => exact Bool.noConfusion hf
  | fieldsFail hop e => exact Bool.noConfusion hf

/-- The COUNT of a well-formed command is at most 72 (rule R27). -/
theorem Gives.count_le {i : Instr} {e : Effects} (h : Gives i e) (hi : i.wellFormed = true) :
    e.count.toNat ≤ 72 := by
  cases h with
  | fields hop l hl => exact (Nat.mod_le _ _).trans ((hl hi).trans (by decide))
  | string hop w l hl => exact (Nat.mod_le _ _).trans hl
  | _ => exact Nat.zero_le _

/-- Nothing is pending while reset is asserted (rule R200). -/
theorem LegalState.inReset_of_pend {s : State} (hs : LegalState s) (hp : s.pend ≠ none) : s.inReset = false := by
  rw [← Bool.not_eq_true]
  intro hr
  exact hp (congrArg State.pend (hs.reset_held hr)).symm

/-- The completion of a well-formed command keeps the legal values. -/
theorem LegalState.retire {s : State} (hs : LegalState s) (hr : s.inReset = false) {i : Instr}
    (hi : i.wellFormed = true) {e : Effects} (he : Gives i e) : LegalState (retire i.opcode e s) where
  err_le := errCode_le e.err
  fail_err hf := mt (errCode_eq_zero_iff e.err).1 (he.err_ne_none hf)
  report herr hf := he.report_cases (mt (errCode_eq_zero_iff e.err).2 herr) hf
  busy_done hp := Bool.noConfusion hp
  count_le := he.count_le hi
  events d hd := (List.mem_append.1 hd).elim (hs.events d) err_range_of_mem_diagEvents
  reset_held h := absurd (hr.symm.trans h) Bool.false_ne_true

/-- The completion of an illegal word keeps the legal values (rule R182). -/
theorem LegalState.illegalCommand {s : State} (hs : LegalState s) (hr : s.inReset = false) (c : Word) :
    LegalState (illegalCommand c s) where
  err_le := errCode_le (some .illegalCommand)
  fail_err _ := by simp
  report _ hf := Bool.noConfusion hf
  busy_done hp := Bool.noConfusion hp
  count_le := hs.count_le
  events d hd := (List.mem_append.1 hd).elim (hs.events d) (err_range_of_mem_diagEvents (err := some .illegalCommand))
  reset_held h := absurd (hr.symm.trans h) Bool.false_ne_true

/-- A block at its reset values has the legal values, whatever the level of the reset input. -/
theorem LegalState.resetBlock {s : State} (hs : LegalState s) (level : Bool) : LegalState (resetBlock level s) where
  err_le := resetStateIsLegal.err_le
  fail_err := resetStateIsLegal.fail_err
  report := resetStateIsLegal.report
  busy_done := resetStateIsLegal.busy_done
  count_le := resetStateIsLegal.count_le
  events := hs.events
  reset_held h := by
    obtain rfl : level = true := h
    rfl

/-- The arrival of a host access keeps the legal values: `lat`, the one reset value it moves, is 0 already. -/
theorem LegalState.arrive {s : State} (hs : LegalState s) (rest : List HostOp) : LegalState (arrive rest s) where
  __ := hs
  reset_held h := congrArg (Machine.arrive rest) (hs.reset_held h)

/-- A returned value keeps the legal values. -/
theorem LegalState.returnValue {s : State} (hs : LegalState s) (v : Word) : LegalState (returnValue v s) where
  __ := hs
  reset_held h := congrArg (Machine.returnValue v) (hs.reset_held h)

/-- While reset is asserted a write is ignored (rule R200). -/
theorem memWrite_of_inReset {s : State} (hr : s.inReset = true) (off size : Nat) (v : Word) :
    memWrite off size v s = s :=
  if_pos hr

/-- Only a write of CMD moves PEND or DONE (rule R52, rule R55). -/
theorem writeReg_pend_done {r : WinReg} (hr : r ≠ .cmd) (v : Word) (s : State) :
    (writeReg r v s).pend = s.pend ∧ (writeReg r v s).statusDone = s.statusDone := by
  cases r with
  | cmd => exact absurd rfl hr
  | _ => simp [writeReg]

/-- A write keeps BUSY and DONE exclusive: it leaves PEND and DONE alone, but for a CMD write, which clears DONE (rule R55). -/
theorem memWrite_busy_done {s : State} (hs : s.pend.isSome = true → s.statusDone = false) (off size : Nat) (v : Word) :
    (memWrite off size v s).pend.isSome = true → (memWrite off size v s).statusDone = false := by
  rcases memWrite_cases off size v s with ⟨h, -⟩ | ⟨r, -, -, -, -, ⟨h, -⟩ | ⟨h, -⟩⟩ <;> rw [h]
  · exact hs
  · exact hs
  · by_cases hr : r = .cmd
    · subst hr
      exact fun _ => rfl
    · obtain ⟨hpend, hdone⟩ := writeReg_pend_done hr v s
      rwa [hpend, hdone]

/-- A write keeps the legal values. -/
theorem LegalState.memWrite {s : State} (hs : LegalState s) (off size : Nat) (v : Word) :
    LegalState (memWrite off size v s) := by
  cases hr : s.inReset with
  | true => rwa [memWrite_of_inReset hr]
  | false =>
    obtain ⟨hfail, herr, hop, -, hcount, -, -, hlog, hin, -⟩ := memWrite_frame off size v s
    exact {
      err_le := herr ▸ hs.err_le
      fail_err := by rw [hfail, herr]; exact hs.fail_err
      report := by rw [hfail, herr, hop]; exact hs.report
      busy_done := memWrite_busy_done hs.busy_done off size v
      count_le := hcount ▸ hs.count_le
      events := hlog ▸ hs.events
      reset_held := fun h => absurd ((hin.trans hr).symm.trans h) Bool.false_ne_true }

/-- Every host access keeps the legal values. -/
theorem LegalState.hostStep {s t : State} (hs : LegalState s) {a : HostOp} {rest : List HostOp}
    (h : hostStep a rest s = .next t) : LegalState t := by
  rcases hostStep_next h with ⟨off, size, -, -, rfl⟩ | ⟨off, size, v, -, -, rfl⟩ | ⟨-, rfl⟩ | ⟨-, rfl⟩ | ⟨-, rfl⟩
  · exact (hs.arrive rest).returnValue _
  · exact (hs.arrive rest).memWrite off size v
  · exact (hs.arrive _).returnValue _
  · exact (hs.arrive rest).resetBlock true
  · rw [releaseReset]
    split
    · exact (hs.arrive rest).resetBlock false
    · exact hs.arrive rest

/-- Settles O50: the engine completes only outside reset, because nothing is pending while it is asserted, and the effects of a
decoded command are legal; a host access moves no field of the invariant but PEND and DONE, or puts the block at its
reset values. -/
theorem everyStepKeepsLegalState : Obligations.EveryStepKeepsLegalState := by
  intro s t hs hstep
  rcases step_next hstep with ⟨c, i, ⟨hp, -⟩, hd, hexec⟩ | ⟨c, e, ⟨hp, -⟩, -, rfl⟩ | ⟨a, rest, -, h⟩ | ⟨-, rfl⟩
  · obtain rfl := exec_next hexec
    exact hs.retire (hs.inReset_of_pend (by simp [hp])) (wellFormed_of_decode hd) (effectsOf_gives i s)
  · exact hs.illegalCommand (hs.inReset_of_pend (by simp [hp])) c
  · exact hs.hostStep h
  · exact hs

end Sys2Proof.Machine

/-! PROOFS of the family 20_memory.md: the host's accesses (rules R51 to R56), the engine's completion (rule R57) and its progress
(rule R59). Each obligation stands after the facts about accesses, the decoder or
completions that it needs. -/

namespace Sys2Proof.Machine

open Sys2Proof

/-! ### Accesses that are not admitted (rule R54) -/

/-- A write of another size than 8 bytes, or at an offset that is no multiple of 8, changes nothing (rule R54). -/
theorem memWrite_of_unadmitted {off size : Nat} (h : size ≠ 8 ∨ off % 8 ≠ 0) (v : Word) (s : State) :
    memWrite off size v s = s := by
  rcases memWrite_cases off size v s with ⟨heq, -⟩ | ⟨r, -, -, hsize, ha, -⟩
  · exact heq
  · exact absurd h (by simp [hsize, ha])

/-- Settles O42: a read of such an access is no read of a register, and a write no write of one. -/
theorem unadmittedAccessHasNoEffect : Obligations.UnadmittedAccessHasNoEffect := fun s _ _ v h =>
  ⟨memRead_eq_zero (.inr (h.imp_right .inl)), memWrite_of_unadmitted h v s⟩

/-! ### Writes while idle and while busy (rule R55, rule R56) -/

/-- Settles O36: the write at CMD's offset is `accept`, and STATUS then reads the fields it leaves. -/
theorem idleCmdWriteIsAccepted : Obligations.IdleCmdWriteIsAccepted := by
  intro s c hr hp
  have hwrite : memWrite 0x008 8 c s = accept c s := memWrite_offset_of_idle hr hp .cmd c
  have hstatus : memRead (accept c s) 0x010 8 = statusWord (accept c s) :=
    memRead_offset ((accept_inReset s c).trans hr) .status
  rw [hwrite, hstatus]
  exact ⟨rfl, getLsbD_statusWord _ (by decide), getLsbD_statusWord _ (by decide)⟩

/-- While a command is pending, a write of CMD or of an input register is refused (rule R56). -/
theorem memWrite_offset_of_frozen {s : State} (hr : s.inReset = false) (hp : s.pend ≠ none) {r : WinReg}
    (hfrozen : r.frozenWhileBusy = true) (v : Word) : memWrite r.offset 8 v s = refuseWrite s := by
  simp [memWrite, hr, (offset_aligned r).1, busy, Option.isSome_iff_ne_none.2 hp, hfrozen]

/-- A write at the offset of a register that is not frozen has that register's effect, busy or not (rule R56). -/
theorem memWrite_offset_of_not_frozen {s : State} (hr : s.inReset = false) {r : WinReg}
    (hfrozen : r.frozenWhileBusy = false) (v : Word) : memWrite r.offset 8 v s = writeReg r v s := by
  simp [memWrite, hr, (offset_aligned r).1, hfrozen]

/-- No register but STATUS reads whether a command is pending (rule R24, rule R56). -/
theorem readReg_clear_pend {r : WinReg} (h : r ≠ .status) (s : State) :
    readReg { s with pend := none } r = readReg s r := by
  cases r with
  | status => exact absurd rfl h
  | _ => rfl

/-- CMD and the input registers are the registers frozen while busy (rule R56). -/
theorem exists_frozen_reg {off : Nat} (h : off = 0x008 ∨ InputOffset off) :
    ∃ r : WinReg, r.offset = off ∧ r.frozenWhileBusy = true := by
  rcases h with rfl | hin
  · exact ⟨.cmd, rfl, rfl⟩
  · obtain ⟨r, rfl⟩ := exists_reg_of_inputOffset hin
    exact ⟨r, rfl, ((inputOffset_offset_iff r).1 hin).1⟩

/-- Settles O37: CMD and the inputs are the frozen registers, STATUS is not one of them, and a write anywhere else reaches a
read-only register, an unmapped offset, or no aligned one. -/
theorem writesWhileBusyAreRefused : Obligations.WritesWhileBusyAreRefused := by
  intro s v hr
  refine ⟨fun hp => ⟨fun off hoff => ?_, fun off hne => ?_⟩, memWrite_offset_of_not_frozen (r := .status) hr rfl v,
    fun off hcmd hstatus hin => ?_⟩
  · obtain ⟨r, rfl, hfrozen⟩ := exists_frozen_reg hoff
    exact memWrite_offset_of_frozen hr hp hfrozen v
  · refine memRead_congr rfl ?_
    rintro r rfl
    exact (readReg_clear_pend (fun h => hne (congrArg WinReg.offset h)) s).symm
  · by_cases ha : off % 8 = 0
    · obtain ⟨-, -, -, hwrite⟩ := readOnlyAndUnmappedOffsets s v hr
      exact hwrite off ha hcmd hstatus hin
    · exact memWrite_of_unadmitted (.inr ha) v s

/-- While a command is pending a write moves no field but PROTO_ERR (rule R56). -/
theorem memWrite_of_pending {s : State} (hp : s.pend ≠ none) (off size : Nat) (v : Word) :
    ∃ proto, memWrite off size v s = { s with statusProto := proto } := by
  rcases memWrite_cases off size v s with ⟨h, -⟩ | ⟨r, -, -, -, -, ⟨h, -⟩ | ⟨h, hfree⟩⟩ <;> rw [h]
  · exact ⟨s.statusProto, rfl⟩
  · exact ⟨true, rfl⟩
  · have hfrozen := hfree.resolve_left hp
    cases r with
    | status => exact ⟨s.statusProto && !v.getLsbD 8, rfl⟩
    | id | result | count | strW | out => exact ⟨s.statusProto, rfl⟩
    | _ => exact Bool.noConfusion hfrozen

/-! ### The host's accesses (rules R51, R52, R63) -/

/-- A read inside the window returns the register's value (rule R52). -/
theorem hostStep_read {off : Nat} (h : off < 0x400) (size : Nat) (rest : List HostOp) (s : State) :
    hostStep (.read (Config.base + off) size) rest s = .next (returnValue (memRead s off size) (arrive rest s)) := by
  simp only [hostStep, windowOffset_base_add h]

/-- A write inside the window takes effect as MemWrite (rule R52). -/
theorem hostStep_write {off : Nat} (h : off < 0x400) (size : Nat) (v : Word) (rest : List HostOp) (s : State) :
    hostStep (.write (Config.base + off) size v) rest s = .next (memWrite off size v (arrive rest s)) := by
  simp only [hostStep, windowOffset_base_add h]

/-- Settles O43: the step is the host's read. -/
theorem hostReadStepReturnsValue : Obligations.HostReadStepReturnsValue := fun s _ size rest hoff hnext =>
  (step_of_hostNext hnext).trans (hostStep_read hoff size rest s)

/-- Settles O44: the step is the host's write. -/
theorem hostWriteStepWrites : Obligations.HostWriteStepWrites := fun s _ size v rest hoff hnext =>
  (step_of_hostNext hnext).trans (hostStep_write hoff size v rest s)

/-- The distance from BASE of an address in the window (rule R51). -/
theorem exists_offset_of_mem_window {addr : Nat} (h : Config.base ≤ addr ∧ addr < Config.base + 0x400) :
    ∃ off < 0x400, addr = Config.base + off :=
  ⟨addr - Config.base, by omega, by omega⟩

/-- A state after a host access made while a command is pending: PROTO_ERR and the host's side have moved, nothing else
(`hostStep_ordinary_of_pending`). -/
def afterAccess (proto : Bool) (queue : List HostOp) (values : List Word) (s : State) : State :=
  { s with statusProto := proto, host := queue, lat := s.lat - 1, reads := values }

/-- An ordinary access is answered, and while a command is pending it moves nothing of the block but PROTO_ERR; it leaves the
queue, or stays at its head where it is a wait (rule R56, rule R79). -/
theorem hostStep_ordinary_of_pending {a : HostOp} (ha : a.Ordinary) (rest : List HostOp) {s : State}
    (hp : s.pend ≠ none) :
    ∃ proto queue values, (queue = rest ∨ queue = a :: rest) ∧
      hostStep a rest s = .next (afterAccess proto queue values s) := by
  cases a with
  | read addr size =>
    obtain ⟨off, hoff, rfl⟩ := exists_offset_of_mem_window ha
    exact ⟨_, _, _, .inl rfl, hostStep_read hoff size rest s⟩
  | write addr size v =>
    obtain ⟨off, hoff, rfl⟩ := exists_offset_of_mem_window ha
    obtain ⟨proto, hwrite⟩ := memWrite_of_pending (s := arrive rest s) hp off size v
    rw [hostStep_write hoff, hwrite]
    exact ⟨proto, _, _, .inl rfl, rfl⟩
  | wait => exact ⟨_, _, _, (ite_eq_or_eq _ _ _).symm, rfl⟩
  | assertReset => exact ha.elim
  | releaseReset => exact ha.elim

/-- A host access is answered, or it is a read or a write of an address outside the window (rule R51). -/
theorem hostStep_next_or_outside (a : HostOp) (rest : List HostOp) (s : State) :
    (∃ t, hostStep a rest s = .next t) ∨
    (hostStep a rest s = .fault .outsideWindow ∧
      ((∃ addr size, a = .read addr size ∧ ¬(Config.base ≤ addr ∧ addr < Config.base + 0x400)) ∨
       ∃ addr size v, a = .write addr size v ∧ ¬(Config.base ≤ addr ∧ addr < Config.base + 0x400))) := by
  cases a with
  | read addr size =>
    cases hoff : windowOffset addr with
    | none => exact .inr ⟨by simp only [hostStep, hoff], .inl ⟨addr, size, rfl, windowOffset_eq_none hoff⟩⟩
    | some off => exact .inl ⟨returnValue (memRead s off size) (arrive rest s), by simp only [hostStep, hoff]⟩
  | write addr size v =>
    cases hoff : windowOffset addr with
    | none => exact .inr ⟨by simp only [hostStep, hoff], .inr ⟨addr, size, v, rfl, windowOffset_eq_none hoff⟩⟩
    | some off => exact .inl ⟨memWrite off size v (arrive rest s), by simp only [hostStep, hoff]⟩
  | wait => exact .inl ⟨_, rfl⟩
  | assertReset => exact .inl ⟨_, rfl⟩
  | releaseReset => exact .inl ⟨_, rfl⟩

/-! ### The engine's completion (rule R57) -/

/-- Settles O6: the step in the engine's turn is decided by the decoder alone. -/
theorem stepRunsDecodedCommand : Obligations.StepRunsDecodedCommand := by
  intro s c i hnext hd
  rw [step_of_engineNext hnext, hd]

/-- Every completion, of a legal word or not, ends with `finish` under the low four bits of the word, on a state whose DIAGLOG is
still the one before (rule R57, rule R182). -/
theorem step_eq_finish {s : State} {c : Word} (h : EngineNext s c) :
    ∃ err failed s', s'.diaglog = s.diaglog ∧ step s = .next (finish (c.extractLsb' 0 4) err failed s') := by
  rw [step_of_engineNext h]
  cases hd : decode c with
  | ok i =>
    obtain ⟨-, -, hop, -⟩ := decode_eq_ok hd
    have hop' : c.extractLsb' 0 4 = i.opcode := hop
    rw [hop']
    exact ⟨_, _, writeOutputs (effectsOf i s) s, rfl, exec_eq_retire i s⟩
  | error e => exact ⟨_, _, s, rfl, rfl⟩

/-- A completion's events are its error code, where that is not 0 (rule R185). -/
theorem diagEvents_eq_ite (op : BitVec 4) (err : Option BitError) :
    diagEvents op err = if errCode err = 0#4 then [] else [DiagEvent.mk op (errCode err)] := by
  cases err with
  | none => rfl
  | some e => exact (if_neg (mt (errCode_eq_zero_iff (some e)).1 (Option.some_ne_none e))).symm

/-- Settles O32: `finish` writes the error code to ERR and appends its event. -/
theorem oneEventExactlyOnError : Obligations.OneEventExactlyOnError := by
  intro s t c hnext hstep
  obtain ⟨err, failed, s', hlog, hfinish⟩ := step_eq_finish hnext
  obtain rfl : finish (c.extractLsb' 0 4) err failed s' = t := Host.Outcome.next.inj (hfinish.symm.trans hstep)
  rw [← hlog]
  exact congrArg (s'.diaglog ++ ·) (diagEvents_eq_ite _ err)

/-- Settles O46: a completion and the idle step are answered, and so is a host access inside the window. -/
theorem onlyOutsideAccessStops : Obligations.OnlyOutsideAccessStops := by
  intro s
  rcases turn_cases s with ⟨c, -, hnext⟩ | ⟨a, rest, -, hnext⟩ | ⟨hidle, -⟩
  · obtain ⟨err, failed, s', -, hfinish⟩ := step_eq_finish hnext
    exact .inl ⟨_, hfinish⟩
  · rw [step_of_hostNext hnext]
    exact (hostStep_next_or_outside a rest s).imp_right fun ⟨hfault, hout⟩ => ⟨hfault, a, rest, hnext.1, hout⟩
  · exact .inl ⟨s, by rw [step, hidle]⟩

/-! ### A placed word (rule R55, rule R70) -/

/-- A count joined to a word at its place moves no mode bit, and joins the CNT field (rule R70, rule R78). -/
theorem fields_or_cntAt (x : Word) (cnt : BitVec 8) :
    fieldModes (x ||| cntAt cnt) = fieldModes x ∧ fieldM0 (x ||| cntAt cnt) = fieldM0 x ∧
      fieldCnt (x ||| cntAt cnt) = fieldCnt x ||| cnt := by
  have hmodes : fieldModes (cntAt cnt) = 0#3 := by
    apply BitVec.eq_of_getLsbD_eq
    intro b hb
    simp [fieldModes, cntAt, hb, show 4 + b < 8 by omega]
  have hcnt : fieldCnt (cntAt cnt) = cnt := by
    apply BitVec.eq_of_getLsbD_eq
    intro b hb
    simp [fieldCnt, cntAt, hb, show 8 + b < 64 by omega]
  refine ⟨?_, by simp [fieldM0, cntAt], ?_⟩
  · calc fieldModes (x ||| cntAt cnt) = fieldModes x ||| fieldModes (cntAt cnt) := BitVec.extractLsb'_or
      _ = fieldModes x := by rw [hmodes, BitVec.or_zero]
  · calc fieldCnt (x ||| cntAt cnt) = fieldCnt x ||| fieldCnt (cntAt cnt) := BitVec.extractLsb'_or
      _ = fieldCnt x ||| cnt := by rw [hcnt]

/-- The word of a command holds the command's immediates, and no mode bit or count that its opcode does not allow
(rule R72, rule R73, rule R78). -/
theorem immediates_encode {i : Instr} (hwf : i.wellFormed = true) :
    fieldModes (encode i) &&& ~~~i.allowedModes = 0#3 ∧ (fieldCnt (encode i)).toNat ≤ i.maxCnt ∧
      i.ImmediatesFrom (encode i) := by
  cases i with
  | clsv | clsb | mask | strf => exact ⟨by decide, by decide, trivial⟩
  | unpkDflt => exact ⟨by decide, by decide, rfl⟩
  | getb strict tb => cases strict <;> cases tb <;> exact ⟨by decide, by decide, rfl, rfl⟩
  | setb st tb andn => cases st <;> cases tb <;> cases andn <;> exact ⟨by decide, by decide, rfl, rfl, rfl⟩
  | cutb tr => cases tr <;> exact ⟨by decide, by decide, rfl⟩
  | pack fm cnt =>
    obtain ⟨hmodes, hm0, hcnt⟩ := fields_or_cntAt (0x7#64 ||| modeAt fm 4) cnt
    have hword : fieldModes (0x7#64 ||| modeAt fm 4) &&& ~~~0b001#3 = 0#3 ∧
        fieldM0 (0x7#64 ||| modeAt fm 4) = fm ∧ fieldCnt (0x7#64 ||| modeAt fm 4) = 0#8 := by
      cases fm <;> decide
    obtain ⟨hmodes', hm0', hcnt'⟩ := hword
    rw [hcnt', BitVec.zero_or] at hcnt
    exact ⟨(congrArg (· &&& ~~~0b001#3) hmodes).trans hmodes', hcnt.symm ▸ of_decide_eq_true hwf,
      (hm0.trans hm0').symm, hcnt.symm⟩
  | unpk cnt =>
    obtain ⟨hmodes, hm0, hcnt⟩ := fields_or_cntAt 0x8#64 cnt
    have hcnt' : fieldCnt (encode (.unpk cnt)) = cnt := hcnt.trans BitVec.zero_or
    exact ⟨congrArg (· &&& ~~~0b001#3) hmodes, hcnt'.symm ▸ of_decide_eq_true hwf, hm0, hcnt'.symm⟩

/-- The opcode of a command's word and the zeros beside its fields, for every command. -/
theorem encodedFields (i : Instr) : Laws.EncodedFields.Statement i := by
  cases i with
  | clsv => exact Laws.EncodedFields.clsv
  | clsb => exact Laws.EncodedFields.clsb
  | mask => exact Laws.EncodedFields.mask
  | getb strict tb => exact Laws.EncodedFields.getb strict tb
  | setb st tb andn => exact Laws.EncodedFields.setb st tb andn
  | cutb tr => exact Laws.EncodedFields.cutb tr
  | pack fm cnt => exact Laws.EncodedFields.pack fm cnt
  | unpk cnt => exact Laws.EncodedFields.unpk cnt
  | unpkDflt => exact Laws.EncodedFields.unpkDflt
  | strf => exact Laws.EncodedFields.strf

/-- The converse of `decode_eq_ok`: a word with a command's opcode, allowed mode bits, a count in range, the command's immediates
and zeros elsewhere decodes to the command (rule R74). -/
theorem decode_of_fields {c : Word} {i : Instr} (hres : fieldRes c = 0#48) (hm3 : fieldM3 c = false)
    (hop : fieldOp c = i.opcode) (hmodes : fieldModes c &&& ~~~i.allowedModes = 0#3)
    (hcnt : (fieldCnt c).toNat ≤ i.maxCnt) (himm : i.ImmediatesFrom c) : decode c = .ok i := by
  rw [decode, if_neg (not_not.2 hres), if_neg (Bool.eq_false_iff.1 hm3), hop]
  cases i with
  | clsv | clsb | mask | strf => exact withImmediates_eq_ok_iff.2 ⟨hmodes, hcnt, rfl⟩
  | getb | setb | cutb | pack =>
    refine withImmediates_eq_ok_iff.2 ⟨hmodes, hcnt, ?_⟩
    simp_all [Instr.ImmediatesFrom]
  | unpk cnt =>
    obtain ⟨h0, rfl⟩ := himm
    exact (if_neg (Bool.eq_false_iff.1 h0)).trans (withImmediates_eq_ok_iff.2 ⟨hmodes, hcnt, rfl⟩)
  | unpkDflt => exact (if_pos himm).trans (withImmediates_eq_ok_iff.2 ⟨hmodes, hcnt, rfl⟩)

/-- A well-formed command is read back from its word (rule R78). -/
theorem decode_encode {i : Instr} (hwf : i.wellFormed = true) : decode (encode i) = .ok i := by
  obtain ⟨hop, hm3, hres⟩ := encodedFields i
  obtain ⟨hmodes, hcnt, himm⟩ := immediates_encode hwf
  exact decode_of_fields hres hm3 hop hmodes hcnt himm

/-- Placing a word of 64 bits puts that word into PEND. -/
theorem withFetchWord_toNat (s : State) (c : Word) : s.withFetchWord 64 c.toNat = pendNow c s := by
  rw [State.withFetchWord, Nat.mod_eq_of_lt c.isLt, BitVec.ofNat_toNat, BitVec.setWidth_eq]

/-- Settles O8: the placed word is pending with no access before its completion, and decodes to the command. -/
theorem placedWordRunsNext : Obligations.PlacedWordRunsNext := by
  intro i s hwf
  rw [withFetchWord_toNat]
  exact stepRunsDecodedCommand _ (encode i) i ⟨rfl, .inl rfl⟩ (decode_encode hwf)

/-! ### Progress (rule R59) and the frozen registers (rule R37) -/

/-- A run whose first step answers `t` goes on from `t`. -/
theorem run_succ_of_step {s t : State} (h : step s = .next t) (k : Nat) :
    Host.Core.run Sys2Proof.core (k + 1) s = Host.Core.run Sys2Proof.core k t := by
  simp only [Host.Core.run, show Sys2Proof.core.step s = .next t from h]

/-- While a command is pending either its completion is next or a host access is (rule R59). -/
theorem engineNext_or_hostNext {s : State} {c : Word} (hp : s.pend = some c) :
    EngineNext s c ∨ ∃ a rest, HostNext s a rest := by
  by_cases hlat : s.lat = 0
  · exact .inl ⟨hp, .inl hlat⟩
  · cases hhost : s.host with
    | nil => exact .inl ⟨hp, .inr hhost⟩
    | cons a rest => exact .inr ⟨a, rest, hhost, .inr hlat⟩

/-- In the engine's turn one step completes the pending word (rule R57). -/
theorem run_one_of_engineNext {s : State} {c : Word} (h : EngineNext s c) :
    ∃ t : State, Host.Core.run Sys2Proof.core 1 s = .next t ∧
      t.pend = none ∧ t.statusDone = true ∧ t.statusLastOp = c.extractLsb' 0 4 := by
  obtain ⟨err, failed, s', -, hfinish⟩ := step_eq_finish h
  exact ⟨_, run_succ_of_step hfinish 0, rfl, rfl, rfl⟩

/-- Settles O51, by induction on `lat`: an access that comes first is answered, keeps the word pending, and leaves one access
fewer before the completion. -/
theorem pendingCommandCompletes : Obligations.PendingCommandCompletes := by
  intro s c hp hord
  induction hlat : s.lat generalizing s with
  | zero => exact ⟨1, Nat.le_refl 1, run_one_of_engineNext ⟨hp, .inl hlat⟩⟩
  | succ n ih =>
    rcases engineNext_or_hostNext hp with hnext | ⟨a, rest, hnext⟩
    · exact ⟨1, by omega, run_one_of_engineNext hnext⟩
    · rw [hnext.1] at hord
      obtain ⟨proto, queue, values, hqueue, haccess⟩ :=
        hostStep_ordinary_of_pending (hord a List.mem_cons_self) rest (s := s) (by simp [hp])
      have hqueue_ord : ∀ b ∈ queue, b.Ordinary := by
        rcases hqueue with rfl | rfl
        · exact fun b hb => hord b (List.mem_cons_of_mem a hb)
        · exact hord
      have hstep : step s = .next (afterAccess proto queue values s) := (step_of_hostNext hnext).trans haccess
      obtain ⟨k, hk, t, hrun, ht⟩ := ih (s := afterAccess proto queue values s) hp hqueue_ord (Nat.sub_eq_of_eq_add hlat)
      exact ⟨k + 1, Nat.succ_le_succ hk, t, (run_succ_of_step hstep k).trans hrun, ht⟩

/-- Only an ordinary access or one of the reset input is answered (rule R51). -/
theorem ordinary_or_reset_of_hostStep_next {a : HostOp} {rest : List HostOp} {s t : State}
    (h : hostStep a rest s = .next t) :
    a.Ordinary ∨ t = assertReset (arrive rest s) ∨ t = releaseReset (arrive rest s) := by
  rcases hostStep_next h with ⟨off, size, rfl, hoff, -⟩ | ⟨off, size, v, rfl, hoff, -⟩ | ⟨rfl, -⟩ | ⟨-, ht⟩ | ⟨-, ht⟩
  · exact .inl ⟨by omega, by omega⟩
  · exact .inl ⟨by omega, by omega⟩
  · exact .inl trivial
  · exact .inr (.inl ht)
  · exact .inr (.inr ht)

/-- What a step of the host can leave of a pending command: nothing pending after the reset input, or every field but PROTO_ERR and
the host's side as it was (rule R56, rule R200). -/
theorem hostStep_next_of_pending {a : HostOp} {rest : List HostOp} {s t : State} (hp : s.pend ≠ none)
    (h : hostStep a rest s = .next t) :
    t.pend = none ∨ ∃ proto queue values, t = afterAccess proto queue values s := by
  rcases ordinary_or_reset_of_hostStep_next h with ha | rfl | rfl
  · obtain ⟨proto, queue, values, -, hhost⟩ := hostStep_ordinary_of_pending ha rest hp
    exact .inr ⟨proto, queue, values, Host.Outcome.next.inj (h.symm.trans hhost)⟩
  · exact .inl rfl
  · rw [releaseReset]
    split
    · exact .inl rfl
    · exact .inr ⟨_, _, _, rfl⟩

/-- Settles O52: a completion ends with nothing pending, and a host access moves PROTO_ERR and the host's side alone, unless it is
a reset. -/
theorem pendingCommandFreezesRegisters : Obligations.PendingCommandFreezesRegisters := by
  intro s t c hp hstep
  rcases engineNext_or_hostNext hp with hnext | ⟨a, rest, hnext⟩
  · obtain ⟨err, failed, s', -, hfinish⟩ := step_eq_finish hnext
    obtain rfl := Host.Outcome.next.inj (hfinish.symm.trans hstep)
    exact .inl rfl
  · rw [step_of_hostNext hnext] at hstep
    refine (hostStep_next_of_pending (by simp [hp]) hstep).imp_right ?_
    rintro ⟨proto, queue, values, rfl⟩
    exact ⟨hp, ⟨rfl, rfl, rfl, rfl, rfl, rfl, rfl⟩, rfl, rfl, rfl, rfl, rfl, rfl, rfl, rfl, rfl⟩

end Sys2Proof.Machine

/-! PROOFS of the family 30_encoding.md: the round trip between commands and words (rules R70 to R73, R78), the legal words
(rule R74) and the pseudo `wait` (rule R79). That a well-formed command is read back from its word is `decode_encode` above; the
other direction is the decoder's injectivity. -/

namespace Sys2Proof.Machine

open Sys2Proof

/-! ### From a command to its word and back (rule R78) -/

/-- Settles O1: the word of a command has the fields that the decoder asks for. -/
theorem decodeEncodeRoundTrip : Obligations.DecodeEncodeRoundTrip := fun _ => decode_encode

/-- Settles O4: each of these words is the word of its command. -/
theorem decodeReadsWordsOfTheSyntaxTable : Obligations.DecodeReadsWordsOfTheSyntaxTable :=
  ⟨decode_encode (i := .clsv) rfl, decode_encode (i := .clsb) rfl, decode_encode (i := .mask) rfl,
    decode_encode (i := .getb true false) rfl, decode_encode (i := .getb false true) rfl,
    decode_encode (i := .setb true false false) rfl, decode_encode (i := .setb false false true) rfl,
    decode_encode (i := .cutb true) rfl, decode_encode (i := .pack true 3#8) rfl, decode_encode (i := .unpk 3#8) rfl,
    decode_encode (i := .unpkDflt) rfl, decode_encode (i := .strf) rfl⟩

/-- Settles O5: the opcode is one of the fields that a decoded word shares with its command. -/
theorem decodedOpcodeIsLowNibble : Obligations.DecodedOpcodeIsLowNibble := by
  intro c i hd
  obtain ⟨-, -, hop, -⟩ := decode_eq_ok hd
  exact hop.symm

/-! ### The decoder is injective (rule R74) -/

/-- Bit `b` of the mode field is bit `4 + b` of the word (rule R70). -/
theorem getLsbD_fieldModes (c : Word) {b : Nat} (hb : b < 3) : (fieldModes c).getLsbD b = c.getLsbD (4 + b) := by
  simp [fieldModes, hb]

/-- The mode field has no bit but allowed ones exactly where every other mode bit of the word is 0 (rule R73). -/
theorem fieldModes_and_not_eq_zero_iff {c : Word} {allowed : BitVec 3} :
    fieldModes c &&& ~~~allowed = 0#3 ↔ ∀ b < 3, allowed.getLsbD b = false → c.getLsbD (4 + b) = false := by
  refine ⟨fun h b hb hbit => ?_, fun h => BitVec.eq_of_getLsbD_eq fun b hb => ?_⟩
  · have hclear : (fieldModes c &&& ~~~allowed).getLsbD b = false := by rw [h, BitVec.getLsbD_zero]
    simpa only [BitVec.getLsbD_and, BitVec.getLsbD_not, getLsbD_fieldModes c hb, hb, hbit, decide_true, Bool.not_false,
      Bool.and_true] using hclear
  · cases hbit : allowed.getLsbD b with
    | true => simp [hbit]
    | false => simp [getLsbD_fieldModes c hb, h b hb hbit]

/-- The immediates of a command fix every mode bit that its opcode defines (rule R73). -/
theorem allowed_mode_eq_of_immediates {c d : Word} {i : Instr} (hc : i.ImmediatesFrom c) (hd : i.ImmediatesFrom d)
    {b : Nat} (hbit : i.allowedModes.getLsbD b = true) : c.getLsbD (4 + b) = d.getLsbD (4 + b) := by
  have hb : b < 3 := BitVec.lt_of_getLsbD hbit
  have hfirst (hallowed : i.allowedModes = 0b001#3) : b = 0 := by
    rw [hallowed] at hbit
    interval_cases b <;> simp_all
  cases i with
  | clsv | clsb | mask | strf => simp [Instr.allowedModes] at hbit
  | setb st tb andn =>
    obtain ⟨rfl, rfl, rfl⟩ := hc
    obtain ⟨h0, h1, h2⟩ := hd
    interval_cases b
    · exact h0
    · exact h1
    · exact h2
  | getb strict tb =>
    obtain ⟨rfl, rfl⟩ := hc
    obtain ⟨h0, h1⟩ := hd
    interval_cases b
    · exact h0
    · exact h1
    · simp [Instr.allowedModes] at hbit
  | cutb tr =>
    obtain rfl := hfirst rfl
    exact hc.symm.trans hd
  | pack fm cnt =>
    obtain rfl := hfirst rfl
    exact hc.1.symm.trans hd.1
  | unpk cnt =>
    obtain rfl := hfirst rfl
    exact hc.1.trans hd.1.symm
  | unpkDflt =>
    obtain rfl := hfirst rfl
    exact Eq.trans hc hd.symm

/-- Two words that decode to one command have the same mode bits: those the opcode defines are the command's, the others 0. -/
theorem fieldModes_eq_of_decode {c d : Word} {i : Instr} (hc : decode c = .ok i) (hd : decode d = .ok i) :
    fieldModes c = fieldModes d := by
  obtain ⟨-, -, -, hmc, -, hic⟩ := decode_eq_ok hc
  obtain ⟨-, -, -, hmd, -, hid⟩ := decode_eq_ok hd
  refine BitVec.eq_of_getLsbD_eq fun b hb => ?_
  rw [getLsbD_fieldModes c hb, getLsbD_fieldModes d hb]
  cases hbit : i.allowedModes.getLsbD b with
  | true => exact allowed_mode_eq_of_immediates hic hid hbit
  | false =>
    rw [fieldModes_and_not_eq_zero_iff.1 hmc b hb hbit, fieldModes_and_not_eq_zero_iff.1 hmd b hb hbit]

/-- Two words that decode to one command have the same count: the command's where it has one, else 0 (rule R72). -/
theorem fieldCnt_eq_of_decode {c d : Word} {i : Instr} (hc : decode c = .ok i) (hd : decode d = .ok i) :
    fieldCnt c = fieldCnt d := by
  obtain ⟨-, -, -, -, hnc, hic⟩ := decode_eq_ok hc
  obtain ⟨-, -, -, -, hnd, hid⟩ := decode_eq_ok hd
  cases i with
  | pack | unpk => exact hic.2.symm.trans hid.2
  | _ => exact BitVec.eq_of_toNat_eq ((Nat.le_zero.1 hnc).trans (Nat.le_zero.1 hnd).symm)

/-- No two words decode to the same command. -/
theorem decode_injective {c d : Word} {i : Instr} (hc : decode c = .ok i) (hd : decode d = .ok i) : c = d := by
  obtain ⟨hrc, h3c, hopc, -⟩ := decode_eq_ok hc
  obtain ⟨hrd, h3d, hopd, -⟩ := decode_eq_ok hd
  exact eq_of_fields (hopc.trans hopd.symm) (fieldModes_eq_of_decode hc hd) (h3c.trans h3d.symm)
    (fieldCnt_eq_of_decode hc hd) (hrc.trans hrd.symm)

/-- Settles O2: the command's own word decodes to it too, and the decoder is injective. -/
theorem encodeRecoversDecodedWord : Obligations.EncodeRecoversDecodedWord := by
  intro c i hd
  have hwf : i.wellFormed = true := wellFormed_of_decode hd
  exact ⟨hwf, decode_injective (decode_encode hwf) hd⟩

/-! ### The legal words, bit range by bit range (rule R74) -/

/-- A bit range is 0 exactly where each of its bits is. -/
theorem extractLsb'_eq_zero_iff {c : Word} {start len : Nat} :
    c.extractLsb' start len = 0#len ↔ ∀ b < len, c.getLsbD (start + b) = false := by
  refine ⟨fun h b hb => ?_, fun h => BitVec.eq_of_getLsbD_eq fun b hb => ?_⟩
  · have := congrArg (BitVec.getLsbD · b) h
    simpa [hb] using this
  · simp [h b hb]

/-- Where an opcode defines the low `k` mode bits, its undefined mode bits are the range above those (rule R73). -/
theorem undefined_modes_eq_zero_iff (c : Word) (k : Nat) :
    fieldModes c &&& ~~~BitVec.ofNat 3 (2 ^ k - 1) = 0#3 ↔ c.extractLsb' (4 + k) (3 - k) = 0#(3 - k) := by
  have hallowed (b : Nat) (hb : b < 3) : (BitVec.ofNat 3 (2 ^ k - 1)).getLsbD b = decide (b < k) := by
    rw [BitVec.getLsbD_ofNat, decide_eq_true hb, Bool.true_and, Nat.testBit_two_pow_sub_one]
  rw [fieldModes_and_not_eq_zero_iff, extractLsb'_eq_zero_iff]
  refine ⟨fun h b hb => ?_, fun h b hb hbit => ?_⟩
  · rw [Nat.add_assoc]
    exact h (k + b) (by omega) (by simp [hallowed (k + b) (by omega)])
  · have hkb : k ≤ b := by simpa [hallowed b hb] using hbit
    simpa [show 4 + k + (b - k) = 4 + b by omega] using h (b - k) (by omega)

/-- Where an opcode defines the low `k` mode bits and no count, all that it leaves undefined below bit 16 is the range from bit
`4 + k` on (rule R74). -/
theorem undefined_immediates_eq_zero_iff {c : Word} (h3 : fieldM3 c = false) (k : Nat) (hk : k ≤ 3) :
    (fieldModes c &&& ~~~BitVec.ofNat 3 (2 ^ k - 1) = 0#3 ∧ (fieldCnt c).toNat ≤ 0) ↔
      c.extractLsb' (4 + k) (12 - k) = 0#(12 - k) := by
  have hcnt : (fieldCnt c).toNat ≤ 0 ↔ c.extractLsb' 8 8 = 0#8 := Nat.le_zero.trans (BitVec.toNat_eq (y := 0#8)).symm
  rw [undefined_modes_eq_zero_iff, hcnt]
  simp only [extractLsb'_eq_zero_iff]
  refine ⟨fun ⟨hm, hc⟩ b hb => ?_, fun h => ⟨fun b hb => h b (by omega), fun b hb => ?_⟩⟩
  · rcases Nat.lt_trichotomy b (3 - k) with hlt | heq | hgt
    · exact hm b hlt
    · rw [show 4 + k + b = 7 by omega]
      exact h3
    · simpa [show 8 + (4 + k + b - 8) = 4 + k + b by omega] using hc (4 + k + b - 8) (by omega)
  · simpa [show 4 + k + (4 - k + b) = 8 + b by omega] using h (4 - k + b) (by omega)

/-- The word of a command that decodes is legal: each command falls under its opcode's clause (rule R74). -/
theorem legal_of_decode {c : Word} {i : Instr} (h : decode c = .ok i) : Legal c := by
  obtain ⟨hres, h3, hop, hmodes, hcnt, himm⟩ := decode_eq_ok h
  refine ⟨hres, h3, ?_⟩
  have hzero := undefined_immediates_eq_zero_iff h3
  cases i with
  | clsv => exact .inl ⟨hop, (hzero 0 (by decide)).1 ⟨hmodes, hcnt⟩⟩
  | clsb => exact .inr (.inl ⟨hop, (hzero 0 (by decide)).1 ⟨hmodes, hcnt⟩⟩)
  | mask => exact .inr (.inr (.inl ⟨hop, (hzero 0 (by decide)).1 ⟨hmodes, hcnt⟩⟩))
  | getb => exact .inr (.inr (.inr (.inl ⟨hop, (hzero 2 (by decide)).1 ⟨hmodes, hcnt⟩⟩)))
  | setb => exact .inr (.inr (.inr (.inr (.inl ⟨hop, (hzero 3 (by decide)).1 ⟨hmodes, hcnt⟩⟩))))
  | cutb =>
    exact .inr (.inr (.inr (.inr (.inr (.inl ⟨hop, (hzero 1 (by decide)).1 ⟨hmodes, hcnt⟩⟩)))))
  | pack =>
    exact .inr (.inr (.inr (.inr (.inr (.inr (.inl
      ⟨hop, (undefined_modes_eq_zero_iff c 1).1 hmodes, hcnt⟩))))))
  | unpk =>
    exact .inr (.inr (.inr (.inr (.inr (.inr (.inr (.inl
      ⟨hop, (undefined_modes_eq_zero_iff c 1).1 hmodes, hcnt, .inl himm.1⟩)))))))
  | unpkDflt =>
    have hcnt0 : c.extractLsb' 8 8 = 0#8 := BitVec.eq_of_toNat_eq (Nat.le_zero.1 hcnt)
    exact .inr (.inr (.inr (.inr (.inr (.inr (.inr (.inl
      ⟨hop, (undefined_modes_eq_zero_iff c 1).1 hmodes, Nat.le_trans hcnt (by decide), .inr hcnt0⟩)))))))
  | strf =>
    exact .inr (.inr (.inr (.inr (.inr (.inr (.inr (.inr
      ⟨hop, (hzero 0 (by decide)).1 ⟨hmodes, hcnt⟩⟩)))))))

/-- A legal word decodes: the command is its clause's, with the immediates read off the word (rule R74). -/
theorem exists_decode_of_legal {c : Word} (h : Legal c) : ∃ i, decode c = .ok i := by
  obtain ⟨hres, h3, hrow⟩ := h
  have hzero := undefined_immediates_eq_zero_iff h3
  rcases hrow with ⟨hop, hz⟩ | ⟨hop, hz⟩ | ⟨hop, hz⟩ | ⟨hop, hz⟩ | ⟨hop, hz⟩ | ⟨hop, hz⟩ | ⟨hop, hm, hcnt⟩ |
    ⟨hop, hm, hcnt, hdflt⟩ | ⟨hop, hz⟩
  · obtain ⟨hmodes, hcnt⟩ := (hzero 0 (by decide)).2 hz
    exact ⟨.clsv, decode_of_fields hres h3 hop hmodes hcnt trivial⟩
  · obtain ⟨hmodes, hcnt⟩ := (hzero 0 (by decide)).2 hz
    exact ⟨.clsb, decode_of_fields hres h3 hop hmodes hcnt trivial⟩
  · obtain ⟨hmodes, hcnt⟩ := (hzero 0 (by decide)).2 hz
    exact ⟨.mask, decode_of_fields hres h3 hop hmodes hcnt trivial⟩
  · obtain ⟨hmodes, hcnt⟩ := (hzero 2 (by decide)).2 hz
    exact ⟨.getb _ _, decode_of_fields hres h3 hop hmodes hcnt ⟨rfl, rfl⟩⟩
  · obtain ⟨hmodes, hcnt⟩ := (hzero 3 (by decide)).2 hz
    exact ⟨.setb _ _ _, decode_of_fields hres h3 hop hmodes hcnt ⟨rfl, rfl, rfl⟩⟩
  · obtain ⟨hmodes, hcnt⟩ := (hzero 1 (by decide)).2 hz
    exact ⟨.cutb _, decode_of_fields hres h3 hop hmodes hcnt rfl⟩
  · have hmodes := (undefined_modes_eq_zero_iff c 1).2 hm
    exact ⟨.pack _ _, decode_of_fields hres h3 hop hmodes hcnt ⟨rfl, rfl⟩⟩
  · have hmodes := (undefined_modes_eq_zero_iff c 1).2 hm
    cases h0 : fieldM0 c with
    | false => exact ⟨.unpk _, decode_of_fields hres h3 hop hmodes hcnt ⟨h0, rfl⟩⟩
    | true =>
      have hcnt0 := hdflt.resolve_left (ne_of_eq_of_ne h0 (by decide))
      exact ⟨.unpkDflt, decode_of_fields hres h3 hop hmodes (Nat.le_of_eq (congrArg BitVec.toNat hcnt0)) h0⟩
  · obtain ⟨hmodes, hcnt⟩ := (hzero 0 (by decide)).2 hz
    exact ⟨.strf, decode_of_fields hres h3 hop hmodes hcnt trivial⟩

/-- Settles O3: each clause of the legality formula is the condition of one row of the decoder. -/
theorem decodeAcceptsExactlyLegalWords : Obligations.DecodeAcceptsExactlyLegalWords := fun _ =>
  ⟨fun ⟨_, hd⟩ => legal_of_decode hd, exists_decode_of_legal⟩

/-! ### The pseudo `wait` (rule R79) -/

/-- A wait returns STATUS, and stays at the head of the queue while its bit 0 is 1 (rule R79). -/
theorem hostStep_wait (rest : List HostOp) (s : State) :
    hostStep .wait rest s = .next (returnValue (memRead s 0x010 8)
      (arrive (if (memRead s 0x010 8).getLsbD 0 then .wait :: rest else rest) s)) := rfl

/-- Settles O45: bit 0 of the STATUS that the wait reads is BUSY. -/
theorem waitPollsUntilIdle : Obligations.WaitPollsUntilIdle := by
  intro s rest hr hnext
  have hbusy : (memRead s 0x010 8).getLsbD 0 = s.pend.isSome := by
    rw [show memRead s 0x010 8 = statusWord s from memRead_offset hr .status]
    exact getLsbD_statusWord s (by decide)
  rw [step_of_hostNext hnext, hostStep_wait, hbusy]
  rfl

end Sys2Proof.Machine

/-! PROOFS of the family 40_width_classifier.md: CLSV (rules R100, R101), CLSB (rules R102, R103) and PACK of nine or more
elements (rule R153). The facts about words, widths and the packer's loop come first, each obligation after the facts it
needs. -/

namespace Sys2Proof.Machine

open Sys2Proof

/-! ### The word of a command (rule R78) -/

/-- The only word that decodes to a well-formed command is the command's own. -/
theorem decode_eq_ok_iff {i : Instr} (hwf : i.wellFormed = true) (c : Word) : decode c = .ok i ↔ c = encode i := by
  constructor
  · exact fun h => decode_injective h (decode_encode hwf)
  · rintro rfl
    exact decode_encode hwf

/-! ### Classification by value (rule R100) -/

/-- The widths of the width bus are the numbers of CANON (rule R6, rule R105). -/
theorem mem_canonical_iff {n : Nat} : n ∈ [8, 16, 32, 64] ↔ ∃ w : Width, w.bits = n := by
  constructor
  · intro h
    simp only [List.mem_cons, List.not_mem_nil, or_false] at h
    rcases h with rfl | rfl | rfl | rfl
    · exact ⟨.eight, rfl⟩
    · exact ⟨.sixteen, rfl⟩
    · exact ⟨.thirtyTwo, rfl⟩
    · exact ⟨.sixtyFour, rfl⟩
  · rintro ⟨w, rfl⟩
    cases w <;> decide

/-- No canonical width whose signed range holds an integer is below the integer's own (rule R100). -/
theorem cw_bits_le {n : Int} {w : Width} (hlo : -2 ^ (w.bits - 1) ≤ n) (hhi : n ≤ 2 ^ (w.bits - 1) - 1) :
    (cw n).bits ≤ w.bits := by
  cases w with
  | sixtyFour => exact (cw n).bits_le
  | eight | sixteen | thirtyTwo =>
    norm_num [Width.bits] at hlo hhi
    unfold cw
    split_ifs <;> simp only [Width.bits] <;> omega

/-- Settles O9: the width that CLSV gives holds the operand, and no smaller canonical width does. -/
theorem clsvGivesSmallestCanonicalWidth : Obligations.ClsvGivesSmallestCanonicalWidth := by
  refine ⟨decode_eq_ok_iff rfl, fun s => ?_⟩
  obtain ⟨hlo, hhi⟩ := sint_mem_range s.opa
  refine ⟨(cw (opaInt s)).bits, mem_canonical_iff.2 ⟨_, rfl⟩, ⟨hlo, Int.le_sub_one_of_lt hhi⟩, ?_, ?_⟩
  · intro w' hw' hlo' hhi'
    obtain ⟨w, rfl⟩ := mem_canonical_iff.1 hw'
    exact cw_bits_le hlo' hhi'
  · rw [exec_eq_retire, effectsOf, retire_scalarOk, word, BitVec.ofInt_natCast]
    rfl

/-! ### Classification by bit count (rule R102) -/

/-- The width of a bit count is the count itself where it is canonical, and 8 otherwise (rule R102). -/
theorem cb_bits (b : Int) : ((cb b).bits : Int) = if b = 8 ∨ b = 16 ∨ b = 32 ∨ b = 64 then b else 8 := by
  unfold cb
  split_ifs <;> simp only [Width.bits] <;> omega

/-- An operand read as an integer is a canonical width exactly where the whole word is one (rule R9). -/
theorem sint_canonical_iff (x : Word) :
    (sint x = 8 ∨ sint x = 16 ∨ sint x = 32 ∨ sint x = 64) ↔ (x = 8#64 ∨ x = 16#64 ∨ x = 32#64 ∨ x = 64#64) := by
  have hword (y : Word) : sint x = sint y ↔ x = y := BitVec.toInt_inj
  exact or_congr (hword 8#64) (or_congr (hword 16#64) (or_congr (hword 32#64) (hword 64#64)))

/-- Settles O10: `word` takes the classified count back to the operand, or to 8. -/
theorem clsbKeepsCanonicalCountsElseEight : Obligations.ClsbKeepsCanonicalCountsElseEight := by
  refine ⟨decode_eq_ok_iff rfl, fun s => ?_⟩
  rw [exec_eq_retire, effectsOf, retire_scalarOk, cb_bits, opaInt, apply_ite word, word_sint]
  simp only [sint_canonical_iff]
  rfl

/-! ### PACK of nine or more elements (rule R153) -/

/-- The inputs of a longer PACK are those of a shorter one, then more. -/
theorem exists_packInputs_eq_append (s : State) {m n : Nat} (h : m ≤ n) :
    ∃ post, packInputs s n = packInputs s m ++ post := by
  obtain ⟨k, rfl⟩ := Nat.exists_eq_add_of_le h
  exact ⟨_, by rw [packInputs, List.range_add, List.map_append, packInputs]⟩

/-- Every element takes at least 8 bits (rule R105). -/
theorem eight_mul_length_le_widthSum (l : List (Bool × Int)) : 8 * l.length ≤ widthSum l := by
  induction l with
  | nil => exact Nat.le_refl 0
  | cons p l ih =>
    have hw := (cw p.2).eight_le_bits
    rw [widthSum_cons, List.length_cons]
    omega

/-- Elements too wide for the word end the loop among themselves, with the error of a tag or of the total, whatever follows them
(rule R151). -/
theorem packLoop_of_overflow (fm : Bool) (l : List (Bool × Int)) (total : Nat) (acc : Int) (hroom : total ≤ 64)
    (hover : 64 < total + widthSum l) :
    ∃ e, (e = .nonIntegerElement ∨ e = .totalWidthExceeded) ∧ ∀ post, packLoop fm (l ++ post) total acc = .error e := by
  induction l generalizing total acc with
  | nil => exact absurd hover (Nat.not_lt.2 hroom)
  | cons p l ih =>
    obtain ⟨tag, v⟩ := p
    cases tag with
    | true => exact ⟨_, .inl rfl, fun post => packLoop_of_bad fm [] _ true v total acc (by simp) hroom (.inl rfl)⟩
    | false =>
      by_cases hfit : total + (cw v).bits ≤ 64
      · rw [widthSum_cons, ← Nat.add_assoc] at hover
        obtain ⟨e, he, hloop⟩ := ih _ (zor acc (shl (packValue fm v) (64 - (total + (cw v).bits)))) hfit hover
        refine ⟨e, he, fun post => ?_⟩
        rw [List.cons_append, packLoop, if_neg Bool.false_ne_true, if_neg (Nat.not_lt.2 hfit), hloop]
      · exact ⟨_, .inr rfl, fun post =>
          packLoop_of_bad fm [] _ false v total acc (by simp) hroom (.inr (Nat.not_le.1 hfit))⟩

/-- The first nine elements fix one error with which PACK of nine or more elements fails. -/
theorem packEffects_of_nine_le (fm : Bool) (s : State) :
    ∃ e, (e = .nonIntegerElement ∨ e = .totalWidthExceeded) ∧
      ∀ n, 9 ≤ n → packEffects fm (packInputs s n) = scalarFail e := by
  have hlen : (packInputs s 9).length = 9 := by rw [packInputs, List.length_map, List.length_range]
  have hsum := eight_mul_length_le_widthSum (packInputs s 9)
  obtain ⟨e, he, hloop⟩ := packLoop_of_overflow fm (packInputs s 9) 0 0 (by decide) (by omega)
  refine ⟨e, he, fun n hn => ?_⟩
  obtain ⟨post, hpost⟩ := exists_packInputs_eq_append s hn
  rw [packEffects, hpost, hloop]

/-- Settles O19: nine elements take 72 bits or more, so the error of the first nine is the error of all. -/
theorem packOfNineOrMoreFails : Obligations.PackOfNineOrMoreFails := by
  intro fm cnt s hcnt
  obtain ⟨e, he, heffects⟩ := packEffects_of_nine_le fm s
  have hexec (n : BitVec 8) (hn : 9 ≤ n.toNat) :
      exec (.pack fm n) s = .next (errAfter s 0x7#4 all1 e.code true) := by
    rw [exec_eq_retire, effectsOf, heffects _ hn, retire_scalarFail]
    rfl
  refine ⟨(hexec cnt hcnt).trans (hexec 9#8 (by decide)).symm, e.code, ?_, hexec cnt hcnt⟩
  rcases he with rfl | rfl
  · exact .inl rfl
  · exact .inr rfl

end Sys2Proof.Machine

/-! PROOFS of the family 41_bit_mask_generator.md: MASK (rules R110, R111). The mask of a canonical width is `getLsbD_mk_bits` above;
what is left is the fallback, and the operand that the command reads. -/

namespace Sys2Proof.Machine

open Sys2Proof

/-- The mask of any other integer is the fallback, which has every bit high (rule R110). -/
theorem getLsbD_mk_of_not_canonical {n : Int} (hn : ¬(n = 8 ∨ n = 16 ∨ n = 32 ∨ n = 64)) {b : Nat} (hb : b < 64) :
    (mk n).getLsbD b = true := by
  have hfallback : Config.maskFallback = BitVec.allOnes 64 := rfl
  rw [mk, if_neg hn, hfallback, BitVec.getLsbD_allOnes, decide_eq_true_eq]
  exact hb

/-- A word that is a canonical width reads as that width, signed and unsigned alike (rule R9). -/
theorem exists_width_of_canonical {x : Word} (hx : x = 8#64 ∨ x = 16#64 ∨ x = 32#64 ∨ x = 64#64) :
    ∃ w : Width, sint x = w.bits ∧ x.toNat = w.bits := by
  rcases hx with rfl | rfl | rfl | rfl
  · exact ⟨.eight, rfl, rfl⟩
  · exact ⟨.sixteen, rfl, rfl⟩
  · exact ⟨.thirtyTwo, rfl, rfl⟩
  · exact ⟨.sixtyFour, rfl, rfl⟩

/-- The bits of the mask for an operand: its most significant ones for a canonical width, and all of them otherwise
(rule R110, rule R111). -/
theorem getLsbD_mk_sint (x : Word) {b : Nat} (hb : b < 64) :
    (mk (sint x)).getLsbD b =
      if x = 8#64 ∨ x = 16#64 ∨ x = 32#64 ∨ x = 64#64 then decide (64 - x.toNat ≤ b) else true := by
  split_ifs with hx
  · obtain ⟨w, hsint, hnat⟩ := exists_width_of_canonical hx
    rw [hsint, hnat, getLsbD_mk_bits w hb]
  · exact getLsbD_mk_of_not_canonical (mt (sint_canonical_iff x).1 hx) hb

/-- Settles O11: RESULT is the mask for the operand read as an integer. -/
theorem maskSetsTheHighBits : Obligations.MaskSetsTheHighBits := by
  refine ⟨decode_eq_ok_iff rfl, fun s => ⟨mk (opaInt s), fun b hb => getLsbD_mk_sint s.opa hb, ?_⟩⟩
  rw [exec_eq_retire, effectsOf, retire_scalarOk]
  rfl

end Sys2Proof.Machine

/-! PROOFS of the family 42_bit_extractor.md: GETB and SETB (rules R120, R121, R123), CUTB (rules R125, R126) and the derived laws
(rule R127). For each command: its value as an operation on words, what it leaves for each outcome of its check, then its
obligations. -/

namespace Sys2Proof.Machine

open Sys2Proof

/-! ### The index check (rule R120) -/

/-- The bound of an index as the rule writes it, on the integers. -/
theorem natCast_indexBound (num : Int) (tb : Bool) :
    (indexBound num tb : Int) = if tb then ((cw num).bits : Int) else 8 * (cw num).bits := by
  rw [indexBound]
  cases tb
  · exact Nat.cast_mul 8 _
  · rfl

/-- An index is valid exactly from 1 to the bound. -/
theorem idxcheck_eq_none_iff (num index : Int) (tb : Bool) :
    idxcheck num index tb = none ↔ 1 ≤ index ∧ index ≤ indexBound num tb := by
  rcases idxcheck_cases num index tb with ⟨hcheck, hindex⟩ | ⟨hcheck, hindex, -⟩ | ⟨hcheck, hindex⟩
  · rw [hcheck]
    exact iff_of_false (Option.some_ne_none _) (by omega)
  · rw [hcheck]
    exact iff_of_false (Option.some_ne_none _) (by omega)
  · exact iff_of_true hcheck hindex

/-- The legacy bound is never below 64, so an index valid for one integer is valid for another, if only the two agree where
the index lies above the word. -/
theorem idxcheck_legacy_eq_none {num num' index : Int} (h : idxcheck num index false = none)
    (hsame : 64 < index → num' = num) : idxcheck num' index false = none := by
  rw [idxcheck_eq_none_iff] at h ⊢
  by_cases hbeyond : 64 < index
  · rwa [hsame hbeyond]
  · have hwidth := (cw num').eight_le_bits
    rw [natCast_indexBound, if_neg Bool.false_ne_true]
    omega

/-! ### GETB (rule R121) -/

/-- The words of GETB. -/
theorem encode_getb : ∀ strict tb : Bool,
    encode (.getb strict tb) = BitVec.ofNat 64 (0x04 + 0x10 * strict.toNat + 0x20 * tb.toNat) := by decide

/-- GETB at a valid index leaves the bit and no error, with and without STRICT. -/
theorem exec_getb_of_valid {tb : Bool} {s : State} (h : idxcheck (opaInt s) (opbInt s) tb = none) (strict : Bool) :
    exec (.getb strict tb) s = .next (okAfter s 0x4#4 (word (getbBit (opaInt s) (opbInt s)))) := by
  rw [exec_eq_retire, effectsOf, getbEffects, h, retire_scalarOk]
  rfl

/-- GETB at an invalid index fails under STRICT, and otherwise reports the error beside the bit. -/
theorem exec_getb_of_invalid {tb : Bool} {s : State} {e : BitError}
    (h : idxcheck (opaInt s) (opbInt s) tb = some e) (strict : Bool) :
    exec (.getb strict tb) s = .next (
      if strict then errAfter s 0x4#4 all1 e.code true
      else errAfter s 0x4#4 (word (getbBit (opaInt s) (opbInt s))) e.code false) := by
  rw [exec_eq_retire, effectsOf, getbEffects, h]
  cases strict
  · exact congrArg _ (retire_scalarDiag ..)
  · exact congrArg _ (retire_scalarFail ..)

/-- The word GETB returns, with the bit as the quotient and remainder of rule R8. -/
theorem word_getbBit (num index : Int) :
    word (getbBit num index) = if 1 ≤ index then BitVec.ofInt 64 (num / 2 ^ (index - 1).toNat % 2) else 0#64 := by
  by_cases h : 1 ≤ index
  · rw [getbBit_of_pos h, if_pos h, zbit_eq_div]
    rcases Int.emod_two_eq_zero_or_one (num / 2 ^ (index - 1).toNat) with hbit | hbit
    · rw [hbit]
      rfl
    · rw [hbit]
      rfl
  · rw [getbBit, if_neg h, if_neg h]
    rfl

/-- Settles O12: the three outcomes of the index check are the valid index, the one above the bound and the one at or below 0. -/
theorem getbReadsReportsOrFails : Obligations.GetbReadsReportsOrFails := by
  refine ⟨fun c strict tb => encode_getb strict tb ▸ decode_eq_ok_iff rfl c, fun strict tb s => ?_⟩
  intro index w bound value err
  have hbound : (indexBound (opaInt s) tb : Int) = bound := natCast_indexBound _ _
  have hvalue : word (getbBit (opaInt s) (opbInt s)) = value := word_getbBit _ _
  have hcases := idxcheck_cases (opaInt s) (opbInt s) tb
  rw [hbound] at hcases
  rcases hcases with ⟨hcheck, (habove : index > bound)⟩ | ⟨hcheck, (hnonpos : index ≤ 0), (hbelow : index ≤ bound)⟩ |
    ⟨hcheck, (hvalid : 1 ≤ index ∧ index ≤ bound)⟩
  · have hinvalid : ¬(1 ≤ index ∧ index ≤ bound) := by omega
    have herr : err = 1#4 := if_pos habove
    rw [exec_getb_of_invalid hcheck, hvalue, herr, if_neg hinvalid]
    rfl
  · have hinvalid : ¬(1 ≤ index ∧ index ≤ bound) := by omega
    have herr : err = 2#4 := if_neg (Int.not_lt.2 hbelow)
    rw [exec_getb_of_invalid hcheck, hvalue, herr, if_neg hinvalid]
    rfl
  · rw [exec_getb_of_valid hcheck, hvalue, if_pos hvalid]

/-! ### SETB (rule R123) -/

/-- The words of SETB. -/
theorem encode_setb : ∀ st tb andn : Bool, encode (.setb st tb andn) =
    BitVec.ofNat 64 (0x05 + 0x10 * st.toNat + 0x20 * tb.toNat + 0x40 * andn.toNat) := by decide

/-- The word SETB gives at bit position k; `word_setbValue` ties it to the integer of the rule. -/
def setbWord (st andn : Bool) (x : Word) (k : Nat) : Word :=
  if st then x ||| 1#64 <<< k else if andn then x &&& ~~~(1#64 <<< k) else x ^^^ 1#64 <<< k

/-- `word` takes the operators of the rule to those of the word (rule R10). -/
theorem word_setbValue (st andn : Bool) (x : Word) (k : Nat) :
    word (setbValue st andn (sint x) k) = setbWord st andn x k := by
  have hone : word 1 = 1#64 := rfl
  rw [setbValue, setbWord, apply_ite word, apply_ite word, word_zor, word_zand, word_zxor, word_znot, word_shl, word_sint, hone]

/-- A bit position above the word leaves the word. -/
theorem setbWord_of_ge (st andn : Bool) (x : Word) {k : Nat} (h : 64 ≤ k) : setbWord st andn x k = x := by
  rw [setbWord, BitVec.shiftLeft_eq_zero h, BitVec.or_zero, BitVec.xor_zero, BitVec.not_zero, BitVec.and_allOnes, ite_self,
    ite_self]

/-- The legacy clear toggles, so twice restores. -/
theorem setbWord_toggle_toggle (x : Word) (k : Nat) : setbWord false false (setbWord false false x k) k = x := by
  simp [setbWord]

/-- The corrected clear is idempotent. -/
theorem setbWord_clear_clear (x : Word) (k : Nat) :
    setbWord false true (setbWord false true x k) k = setbWord false true x k := by
  simp [setbWord, BitVec.and_assoc]

/-- Under S the bit is 1 afterwards. -/
theorem getLsbD_setbWord_set (andn : Bool) (x : Word) {k : Nat} (h : k < 64) :
    (setbWord true andn x k).getLsbD k = true := by
  simp [setbWord, h]

/-- SETB at a valid index leaves the word with the bit changed and no error. -/
theorem exec_setb_of_valid {tb : Bool} {s : State} (h : idxcheck (opaInt s) (opbInt s) tb = none) (st andn : Bool) :
    exec (.setb st tb andn) s = .next (okAfter s 0x5#4 (setbWord st andn s.opa (opbInt s - 1).toNat)) := by
  rw [exec_eq_retire, effectsOf, setbEffects, h, retire_scalarOk, opaInt, word_setbValue]
  rfl

/-- SETB at an invalid index fails, whatever it would have done to the bit. -/
theorem exec_setb_of_invalid {tb : Bool} {s : State} {e : BitError}
    (h : idxcheck (opaInt s) (opbInt s) tb = some e) (st andn : Bool) :
    exec (.setb st tb andn) s = .next (errAfter s 0x5#4 all1 e.code true) := by
  rw [exec_eq_retire, effectsOf, setbEffects, h, retire_scalarFail]
  rfl

/-- Settles O14: each outcome of the index check is one branch of the statement. -/
theorem setbSetsTogglesClearsOrFails : Obligations.SetbSetsTogglesClearsOrFails := by
  refine ⟨fun c st tb andn => encode_setb st tb andn ▸ decode_eq_ok_iff rfl c, fun st tb andn s => ?_⟩
  intro index w bound bit
  have hbound : (indexBound (opaInt s) tb : Int) = bound := natCast_indexBound _ _
  have hcases := idxcheck_cases (opaInt s) (opbInt s) tb
  rw [hbound] at hcases
  rcases hcases with ⟨hcheck, (habove : index > bound)⟩ | ⟨hcheck, (hnonpos : index ≤ 0), (hbelow : index ≤ bound)⟩ |
    ⟨hcheck, (hpos : 1 ≤ index), (hbelow : index ≤ bound)⟩
  · rw [exec_setb_of_invalid hcheck, if_pos habove]
    rfl
  · rw [exec_setb_of_invalid hcheck, if_neg (Int.not_lt.2 hbelow), if_pos hnonpos]
    rfl
  · rw [exec_setb_of_valid hcheck, if_neg (Int.not_lt.2 hbelow), if_neg (Int.not_le.2 hpos)]
    rfl

/-- A SETB that does not fail had a valid index, and its RESULT is the word with the bit changed. -/
theorem setb_of_not_failed {st tb andn : Bool} {s t : State} (h : exec (.setb st tb andn) s = .next t)
    (hok : t.statusFail = false) :
    idxcheck (opaInt s) (opbInt s) tb = none ∧ t.result = setbWord st andn s.opa (opbInt s - 1).toNat := by
  cases hcheck : idxcheck (opaInt s) (opbInt s) tb with
  | none =>
    rw [exec_setb_of_valid hcheck] at h
    cases h
    exact ⟨rfl, rfl⟩
  | some e =>
    rw [exec_setb_of_invalid hcheck] at h
    cases h
    cases hok

/-- After a SETB without TB that succeeded, one on its RESULT at the same index succeeds too and changes the same bit. -/
theorem setb_legacy_again {st andn : Bool} {s t u : State} (h : exec (.setb st false andn) s = .next t)
    (hok : t.statusFail = false) (hopa : u.opa = t.result) (hopb : u.opb = s.opb) :
    ∃ u', exec (.setb st false andn) u = .next u' ∧ u'.statusFail = false ∧
      u'.result = setbWord st andn t.result (opbInt s - 1).toNat := by
  obtain ⟨hcheck, hresult⟩ := setb_of_not_failed h hok
  have hindex : opbInt u = opbInt s := congrArg sint hopb
  have hcheck' : idxcheck (opaInt u) (opbInt u) false = none := by
    rw [hindex]
    refine idxcheck_legacy_eq_none hcheck fun hbeyond => ?_
    rw [opaInt, opaInt, hopa, hresult, setbWord_of_ge _ _ _ (by omega)]
  refine ⟨_, exec_setb_of_valid hcheck' st andn, rfl, ?_⟩
  rw [hindex, hopa]
  rfl

/-! ### The derived laws of GETB and SETB (rule R127) -/

/-- Settles O26: the bit that SETB set lies inside the word, where GETB reads it whether or not the index is still valid. -/
theorem getbReadsTheBitSetbSet : Obligations.GetbReadsTheBitSetbSet := by
  intro tb andn tb' s t u h hok hle hopa hopb
  obtain ⟨hcheck, hresult⟩ := setb_of_not_failed h hok
  obtain ⟨hpos, -⟩ := (idxcheck_eq_none_iff _ _ _).1 hcheck
  have hindex : opbInt u = opbInt s := congrArg sint hopb
  have hinside : (opbInt s - 1).toNat < 64 := by
    have hle' : opbInt s ≤ 64 := hle
    omega
  have hbit : getbBit (opaInt u) (opbInt u) = 1 := by
    rw [hindex, getbBit_of_pos hpos, opaInt, zbit_sint, if_pos hinside, hopa, hresult, getLsbD_setbWord_set _ _ hinside]
    rfl
  refine ⟨_, exec_eq_retire _ _, ?_⟩
  rw [retire_result, effectsOf, (getbEffects_lenient ..).1, hbit]
  rfl

/-- Settles O27: the index stays valid, and toggling the same bit twice restores the word. -/
theorem legacyClearTwiceRestores : Obligations.LegacyClearTwiceRestores := by
  intro s t u h hok hopa hopb
  obtain ⟨u', hexec, hok', hresult'⟩ := setb_legacy_again h hok hopa hopb
  refine ⟨u', hexec, hok', ?_⟩
  rw [hresult', (setb_of_not_failed h hok).2, setbWord_toggle_toggle]

/-- Settles O28: the index stays valid, and clearing a cleared bit leaves the word. -/
theorem correctedClearIsIdempotent : Obligations.CorrectedClearIsIdempotent := by
  intro s t u h hok hopa hopb
  obtain ⟨u', hexec, hok', hresult'⟩ := setb_legacy_again h hok hopa hopb
  refine ⟨u', hexec, hok', ?_⟩
  rw [hresult', (setb_of_not_failed h hok).2, setbWord_clear_clear]

/-! ### CUTB (rules R125, R126) -/

/-- The words of CUTB. -/
theorem encode_cutb : ∀ tr : Bool, encode (.cutb tr) = BitVec.ofNat 64 (0x06 + 0x10 * tr.toNat) := by decide

/-- The word of n low ones has exactly those bits. -/
theorem getLsbD_lowOnes {n : Nat} (hn : n ≤ 64) (i : Nat) : (lowOnes n).getLsbD i = decide (i < n) := by
  rw [lowOnes, BitVec.getLsbD_ushiftRight, BitVec.getLsbD_allOnes, decide_eq_decide]
  omega

/-- The word CUTB gives for a valid range; `word_cutbValue` ties it to the integer of the rule. -/
def cutbWord (tr : Bool) (x : Word) (lo hi : Int) : Word :=
  if tr then (x >>> (lo - 1).toNat) &&& lowOnes (hi - lo + 1).toNat else x &&& lowOnes hi.toNat

/-- Legacy CUTB does not read `from`. -/
theorem cutbWord_legacy (x : Word) (lo hi : Int) : cutbWord false x lo hi = x &&& lowOnes hi.toNat := rfl

/-- From 1 the true range is the range of legacy. -/
theorem cutbWord_trueRange_from_one (x : Word) (hi : Int) : cutbWord true x 1 hi = cutbWord false x 1 hi := by
  rw [cutbWord_legacy, cutbWord, if_pos rfl, Int.sub_add_cancel, Int.sub_self, Int.toNat_zero, BitVec.ushiftRight_zero]

/-- A range that passes the check is not empty and lies inside the width. -/
theorem range_of_cutcheck_eq_none {num lo hi : Int} (h : cutcheck num lo hi = none) :
    1 ≤ lo ∧ lo < hi ∧ hi ≤ (cw num).bits := by
  rcases cutcheck_cases num lo hi with ⟨hsome, -⟩ | ⟨hsome, -⟩ | ⟨hsome, -⟩ | ⟨-, hrange⟩
  · cases hsome.symm.trans h
  · cases hsome.symm.trans h
  · cases hsome.symm.trans h
  · exact hrange

/-- Inside the word the low bits are those of the operand, and under TR the mask cuts off the copies of the sign that the arithmetic
shift brings in. -/
theorem word_cutbValue {x : Word} {lo hi : Int} (h : cutcheck (sint x) lo hi = none) (tr : Bool) :
    word (cutbValue tr (sint x) lo.toNat hi.toNat) = cutbWord tr x lo hi := by
  obtain ⟨hlo, hlt, hhi⟩ := range_of_cutcheck_eq_none h
  have hwidth := (cw (sint x)).bits_le
  apply BitVec.eq_of_getLsbD_eq
  intro i hi64
  cases tr with
  | false =>
    rw [cutbValue, if_neg Bool.false_ne_true, word_zand, word_sint, cutbWord_legacy, BitVec.getLsbD_and, BitVec.getLsbD_and,
      getLsbD_word, zbit_lowMask, getLsbD_lowOnes (by omega), decide_eq_true hi64, Bool.true_and]
  | true =>
    have hshift : (lo - 1).toNat = lo.toNat - 1 := by omega
    have hcount : (hi - lo + 1).toNat = hi.toNat - lo.toNat + 1 := by omega
    rw [cutbValue, if_pos rfl, cutbWord, if_pos rfl, hshift, hcount, getLsbD_word, zbit_zand, zbit_shr, zbit_sint,
      zbit_lowMask, BitVec.getLsbD_and, BitVec.getLsbD_ushiftRight, getLsbD_lowOnes (by omega), decide_eq_true hi64,
      Bool.true_and]
    by_cases hin : i < hi.toNat - lo.toNat + 1
    · rw [if_pos (by omega)]
    · rw [decide_eq_false hin, Bool.and_false, Bool.and_false]

/-- CUTB of a valid range leaves the word of the range and no error. -/
theorem exec_cutb_of_valid {s : State} (h : cutcheck (opaInt s) (opbInt s) (opcInt s) = none) (tr : Bool) :
    exec (.cutb tr) s = .next (okAfter s 0x6#4 (cutbWord tr s.opa (opbInt s) (opcInt s))) := by
  rw [exec_eq_retire, effectsOf, cutbEffects, h, retire_scalarOk, opaInt, word_cutbValue h]
  rfl

/-- CUTB of an invalid range fails, with the same error for both values of TR. -/
theorem exec_cutb_of_invalid {s : State} {e : BitError}
    (h : cutcheck (opaInt s) (opbInt s) (opcInt s) = some e) (tr : Bool) :
    exec (.cutb tr) s = .next (errAfter s 0x6#4 all1 e.code true) := by
  rw [exec_eq_retire, effectsOf, cutbEffects, h, retire_scalarFail]
  rfl

/-- Settles O15: each outcome of the range check is one branch of the statement. -/
theorem cutbChecksThenExtracts : Obligations.CutbChecksThenExtracts := by
  refine ⟨fun c tr => encode_cutb tr ▸ decode_eq_ok_iff rfl c, fun tr s => ?_⟩
  intro lo hi w
  rcases cutcheck_cases (opaInt s) (opbInt s) (opcInt s) with
    ⟨hcheck, (hexceeds : lo > w ∨ hi > w)⟩ |
    ⟨hcheck, (hlo : lo ≤ w), (hhi : hi ≤ w), (hnonpos : lo ≤ 0 ∨ hi ≤ 0)⟩ |
    ⟨hcheck, (hlo : lo ≤ w), (hhi : hi ≤ w), (hlo' : 1 ≤ lo), (hhi' : 1 ≤ hi), (hempty : lo ≥ hi)⟩ |
    ⟨hcheck, (hlo : 1 ≤ lo), (hlt : lo < hi), (hhi : hi ≤ w)⟩
  · rw [exec_cutb_of_invalid hcheck, if_pos hexceeds]
    rfl
  · have hwithin : ¬(lo > w ∨ hi > w) := by omega
    rw [exec_cutb_of_invalid hcheck, if_neg hwithin, if_pos hnonpos]
    rfl
  · have hwithin : ¬(lo > w ∨ hi > w) := by omega
    have hpositive : ¬(lo ≤ 0 ∨ hi ≤ 0) := by omega
    rw [exec_cutb_of_invalid hcheck, if_neg hwithin, if_neg hpositive, if_pos hempty]
    rfl
  · have hwithin : ¬(lo > w ∨ hi > w) := by omega
    have hpositive : ¬(lo ≤ 0 ∨ hi ≤ 0) := by omega
    rw [exec_cutb_of_valid hcheck, if_neg hwithin, if_neg hpositive, if_neg (Int.not_le.2 hlt)]
    rfl

/-! ### The derived laws of CUTB (rule R127) -/

/-- A CUTB that does not fail gives the word of its range. -/
theorem result_of_cutb_not_failed {tr : Bool} {s t : State} (h : exec (.cutb tr) s = .next t)
    (hok : t.statusFail = false) : t.result = cutbWord tr s.opa (opbInt s) (opcInt s) := by
  cases hcheck : cutcheck (opaInt s) (opbInt s) (opcInt s) with
  | none =>
    rw [exec_cutb_of_valid hcheck] at h
    cases h
    rfl
  | some e =>
    rw [exec_cutb_of_invalid hcheck] at h
    cases h
    cases hok

/-- Settles O29: the legacy value does not mention `from`, and from 1 the true range is the legacy one; the check does not look
at TR. -/
theorem cutbFromMattersOnlyUnderTrueRange : Obligations.CutbFromMattersOnlyUnderTrueRange := by
  constructor
  · intro s t s' t' hs ht hoks hokt hopa hopc
    rw [result_of_cutb_not_failed hs hoks, result_of_cutb_not_failed ht hokt, cutbWord_legacy, cutbWord_legacy, opcInt, opcInt,
      hopa, hopc]
  · intro s hopb
    have hone : opbInt s = 1 := by
      rw [opbInt, hopb]
      rfl
    cases hcheck : cutcheck (opaInt s) (opbInt s) (opcInt s) with
    | none => rw [exec_cutb_of_valid hcheck, exec_cutb_of_valid hcheck, hone, cutbWord_trueRange_from_one]
    | some e => rw [exec_cutb_of_invalid hcheck, exec_cutb_of_invalid hcheck]

end Sys2Proof.Machine

/-! PROOFS of the family 43_barrel_shifter_packer.md: PACK (rules R150, R151, R152) and its inverse by UNPK (rule R154). The input
sequences and what their loops give come first, then where each element stands in the word, then the obligations. -/

namespace Sys2Proof.Machine

open Sys2Proof

/-! ### The input sequences (rule R72) -/

@[simp] theorem length_packInputs (s : State) (n : Nat) : (packInputs s n).length = n := by simp [packInputs]

@[simp] theorem getElem_packInputs (s : State) (n i : Nat) (h : i < (packInputs s n).length) :
    (packInputs s n)[i] = elemAt s i := by simp [packInputs]

@[simp] theorem length_layoutInputs (s : State) (n : Nat) : (layoutInputs s n).length = n := by simp [layoutInputs]

@[simp] theorem getElem_layoutInputs (s : State) (n i : Nat) (h : i < (layoutInputs s n).length) :
    (layoutInputs s n)[i] = layoutAt s i := by simp [layoutInputs]

/-- The first elements of a longer PACK are the inputs of a shorter one. -/
theorem take_packInputs (s : State) {m n : Nat} (h : m ≤ n) : (packInputs s n).take m = packInputs s m := by
  rw [packInputs, ← List.map_take, List.take_range, Nat.min_eq_left h, packInputs]

/-- The first entries of a longer layout are those of a shorter one. -/
theorem take_layoutInputs (s : State) {m n : Nat} (h : m ≤ n) : (layoutInputs s n).take m = layoutInputs s m := by
  rw [layoutInputs, ← List.map_take, List.take_range, Nat.min_eq_left h, layoutInputs]

/-- The width of the first n elements is the running total of rule R150. -/
theorem widthSum_packInputs (s : State) (n : Nat) : widthSum (packInputs s n) = packTotal s n := by
  rw [widthSum, packInputs, List.map_map, packTotal]
  rfl

/-- The declared width of the first n entries is the running total of rule R161. -/
theorem declaredSum_layoutInputs (s : State) (n : Nat) : declaredSum (layoutInputs s n) = layoutTotal s n := by
  rw [declaredSum, layoutInputs, List.map_map, layoutTotal]
  rfl

/-- No input of PACK is tagged exactly where no ELEM_NI bit below the count is set (rule R28). -/
theorem packInputs_untagged_iff (s : State) (n : Nat) :
    (∀ p ∈ packInputs s n, p.1 = false) ↔ ∀ i < n, s.elemNi.getLsbD i = false := by
  simp [packInputs, elemAt]

/-- No entry of a layout is tagged exactly where no LAYOUT_NI bit below the count is set (rule R29). -/
theorem layoutInputs_untagged_iff (s : State) (n : Nat) :
    (∀ p ∈ layoutInputs s n, p.1 = false) ↔ ∀ i < n, s.layoutNi.getLsbD i = false := by
  simp [layoutInputs, layoutAt]

/-- The inputs up to element j, element j, and whatever follows. -/
theorem exists_packInputs_eq_append_cons (s : State) {j n : Nat} (h : j < n) :
    ∃ post, packInputs s n = packInputs s j ++ elemAt s j :: post := by
  obtain ⟨post, hpost⟩ := exists_packInputs_eq_append s (Nat.succ_le_of_lt h)
  refine ⟨post, ?_⟩
  rw [hpost, packInputs, List.range_succ, List.map_append, List.append_assoc]
  rfl

/-- An element adds its width to the running total. -/
theorem packTotal_succ (s : State) (n : Nat) : packTotal s (n + 1) = packTotal s n + packWidth s n := by
  simp [packTotal, List.range_succ]

/-- The running total does not decrease. -/
theorem packTotal_mono (s : State) : Monotone (packTotal s) :=
  monotone_nat_of_le_succ fun n => packTotal_succ s n ▸ Nat.le_add_right _ _

/-- Every element takes at least 8 bits of the total (rule R105). -/
theorem eight_mul_le_packTotal (s : State) (n : Nat) : 8 * n ≤ packTotal s n := by
  simpa [widthSum_packInputs] using eight_mul_length_le_widthSum (packInputs s n)

/-! ### Bits of integers (rule R8) -/

/-- The residue modulo 2^w keeps the low w bits. -/
theorem zbit_emod_two_pow (a : Int) (w j : Nat) : zbit (a % 2 ^ w) j = (decide (j < w) && zbit a j) := by
  cases a with
  | ofNat m =>
    have hmod : (Int.ofNat m : Int) % 2 ^ w = .ofNat (m % 2 ^ w) := by simp
    rw [hmod, zbit_ofNat, zbit_ofNat, Nat.testBit_mod_two_pow]
  | negSucc m =>
    have hlt : m % 2 ^ w < 2 ^ w := Nat.mod_lt _ (by positivity)
    have hmod : Int.negSucc m % 2 ^ w = .ofNat (2 ^ w - (m % 2 ^ w + 1)) := by
      rw [Int.negSucc_emod _ (by positivity), Int.ofNat_eq_natCast, Nat.cast_sub hlt]
      push_cast
      ring
    rw [hmod, zbit_ofNat, Nat.testBit_two_pow_sub_succ hlt, Nat.testBit_mod_two_pow, zbit_negSucc]
    cases decide (j < w) <;> rfl

/-- An integer that is not negative and lies below 2^j has no bit j. -/
theorem zbit_eq_false_of_lt {a : Int} {j : Nat} (h0 : 0 ≤ a) (h : a < 2 ^ j) : zbit a j = false := by
  rw [zbit_eq_div, Int.ediv_eq_zero_of_lt h0 h]
  rfl

/-- An element lies below 2 to its canonical width (rule R100). -/
theorem elemAt_lt_two_pow (s : State) (i : Nat) : (elemAt s i).2 < 2 ^ packWidth s i :=
  (sint_mem_range _).2.trans_le (pow_le_pow_right₀ (by norm_num) (Nat.sub_le _ _))

/-! ### What PACK leaves (rule R151) -/

/-- The bits of an element as it is placed: all of its own in legacy, those of its field with FM. -/
theorem zbit_packValue (fm : Bool) (v : Int) (j : Nat) :
    zbit (packValue fm v) j = true ↔ (fm = true → j < (cw v).bits) ∧ zbit v j = true := by
  cases fm with
  | false => simp [packValue]
  | true => simp [packValue, and_comm]

/-- The shift at which element i stands, 64 - T_i (rule R150). -/
def packShift (s : State) (i : Nat) : Nat := 64 - packTotal s (i + 1)

/-- The bits of `r` are those of the first n elements, each at its shift, and no other (rule R150). -/
def PlacesElements (fm : Bool) (s : State) (n : Nat) (r : Word) : Prop :=
  ∀ b < 64, (r.getLsbD b = true ↔ ∃ i < n, packShift s i ≤ b ∧
    zbit (packValue fm (elemAt s i).2) (b - packShift s i) = true)

/-- PACK succeeds where nothing is tagged and the total fits, and RESULT is the elements in place. -/
theorem exec_pack_of_fits (fm : Bool) {cnt : BitVec 8} {s : State}
    (htag : ∀ i < cnt.toNat, s.elemNi.getLsbD i = false) (hfit : packTotal s cnt.toNat ≤ 64) :
    ∃ r, exec (.pack fm cnt) s = .next (okAfter s 0x7#4 r) ∧ PlacesElements fm s cnt.toNat r := by
  obtain ⟨a, hloop, hbits⟩ := packLoop_of_fits fm (packInputs s cnt.toNat) 0 0
    ((packInputs_untagged_iff s _).2 htag) (by rwa [Nat.zero_add, widthSum_packInputs])
  refine ⟨word a, ?_, fun b hb => ?_⟩
  · rw [exec_eq_retire, effectsOf, packEffects, hloop, retire_scalarOk]
    rfl
  · have hshift (i : Nat) (hi : i < cnt.toNat) :
        64 - (0 + widthSum ((packInputs s cnt.toNat).take (i + 1))) = packShift s i := by
      rw [take_packInputs s hi, widthSum_packInputs, Nat.zero_add, packShift]
    rw [getLsbD_word, decide_eq_true hb, Bool.true_and, hbits b, zbit_zero]
    simp only [Bool.false_eq_true, false_or, length_packInputs, getElem_packInputs]
    constructor
    · rintro ⟨i, hi, hle, hbit⟩
      rw [hshift i hi] at hle hbit
      exact ⟨i, hi, hle, hbit⟩
    · rintro ⟨i, hi, hle, hbit⟩
      refine ⟨i, hi, ?_⟩
      rw [hshift i hi]
      exact ⟨hle, hbit⟩

/-- A loop of PACK that succeeds met no tag, and its total fits. -/
theorem packLoop_eq_ok {fm : Bool} {l : List (Bool × Int)} {total : Nat} {acc a : Int} (hroom : total ≤ 64)
    (h : packLoop fm l total acc = .ok a) : (∀ p ∈ l, p.1 = false) ∧ total + widthSum l ≤ 64 := by
  induction l generalizing total acc with
  | nil => exact ⟨by simp, hroom⟩
  | cons p l ih =>
    obtain ⟨tag, v⟩ := p
    rw [packLoop] at h
    split_ifs at h with htag hover
    obtain ⟨hrest, hfit⟩ := ih (Nat.not_lt.1 hover) h
    rw [widthSum_cons, ← Nat.add_assoc]
    exact ⟨List.forall_mem_cons.2 ⟨Bool.not_eq_true _ ▸ htag, hrest⟩, hfit⟩

/-- A PACK that does not fail had no tagged element and a total that fits. -/
theorem fits_of_pack_not_failed {fm : Bool} {cnt : BitVec 8} {s t : State} (h : exec (.pack fm cnt) s = .next t)
    (hok : t.statusFail = false) :
    (∀ i < cnt.toNat, s.elemNi.getLsbD i = false) ∧ packTotal s cnt.toNat ≤ 64 := by
  rw [exec_next h, retire_statusFail, effectsOf, packEffects] at hok
  cases hloop : packLoop fm (packInputs s cnt.toNat) 0 0 with
  | ok a =>
    obtain ⟨htag, hfit⟩ := packLoop_eq_ok (Nat.zero_le _) hloop
    rw [Nat.zero_add, widthSum_packInputs] at hfit
    exact ⟨(packInputs_untagged_iff s _).1 htag, hfit⟩
  | error e =>
    rw [hloop] at hok
    cases hok

/-- Settles O16: the bit of a placed element is its own bit, in its field only with FM. -/
theorem packPlacesEachElement : Obligations.PackPlacesEachElement := by
  intro fm cnt s htag hfit
  obtain ⟨r, hexec, hbits⟩ := exec_pack_of_fits fm htag hfit
  refine ⟨r, hexec, fun b hb => (hbits b hb).trans ?_⟩
  refine exists_congr fun i => and_congr_right fun _ => and_congr_right fun hle => ?_
  have hfield : b - packShift s i < packWidth s i ↔ b < packShift s i + packWidth s i := by omega
  rw [zbit_packValue, ← packWidth, hfield]
  rfl

/-- Settles O17: the inputs up to element j pass both checks, so the loop ends at element j with the error of its tag or of its
width. -/
theorem packFailsAtFirstBadElement : Obligations.PackFailsAtFirstBadElement := by
  intro fm cnt s j err hj htag hfit hbad
  obtain ⟨post, hpost⟩ := exists_packInputs_eq_append_cons s hj
  have hstop : (elemAt s j).1 = true ∨ 64 < 0 + widthSum (packInputs s j) + (cw (elemAt s j).2).bits := by
    rw [Nat.zero_add, widthSum_packInputs, ← packWidth, ← packTotal_succ]
    exact hbad.imp And.left fun ⟨_, hover, _⟩ => hover
  have hloop := packLoop_of_bad fm (packInputs s j) post (elemAt s j).1 (elemAt s j).2 0 0
    ((packInputs_untagged_iff s j).2 htag) (by rwa [Nat.zero_add, widthSum_packInputs]) hstop
  have hcode : (if (elemAt s j).1 then BitError.nonIntegerElement else .totalWidthExceeded).code = err := by
    rcases hbad with ⟨htagged, rfl⟩ | ⟨huntagged, -, rfl⟩
    · rw [elemAt, htagged]
      rfl
    · rw [elemAt, huntagged]
      rfl
  rw [exec_eq_retire, effectsOf, packEffects, hpost, hloop, retire_scalarFail, hcode]
  rfl

/-- Settles O18: without an element the loop answers its accumulator, 0. -/
theorem packOfNothingIsZero : Obligations.PackOfNothingIsZero := by
  intro fm s
  have hloop : packEffects fm (packInputs s (0#8).toNat) = scalarOk 0#64 := rfl
  rw [exec_eq_retire, effectsOf, hloop, retire_scalarOk]
  rfl

/-! ### The fields of the packed word (rule R154) -/

/-- Element i fills the bits between its shift and the total before it. -/
theorem packShift_add_packWidth {s : State} {i : Nat} (hfit : packTotal s (i + 1) ≤ 64) :
    packShift s i + packWidth s i = 64 - packTotal s i := by
  rw [packTotal_succ] at hfit
  rw [packShift, packTotal_succ]
  omega

/-- A later element stands below an earlier one. -/
theorem packShift_add_packWidth_le {s : State} {i k : Nat} (hik : i < k) (hfit : packTotal s (k + 1) ≤ 64) :
    packShift s k + packWidth s k ≤ packShift s i := by
  have hmono : packTotal s (i + 1) ≤ packTotal s k := packTotal_mono s hik
  rw [packShift_add_packWidth hfit, packShift]
  exact Nat.sub_le_sub_left hmono 64

/-- Masked, or not negative, an element as placed has no bit outside its field. -/
theorem lt_packWidth_of_zbit_packValue {fm : Bool} {s : State} {i j : Nat} (hv : fm = true ∨ 0 ≤ (elemAt s i).2)
    (hbit : zbit (packValue fm (elemAt s i).2) j = true) : j < packWidth s i := by
  obtain ⟨hmask, hown⟩ := (zbit_packValue fm _ j).1 hbit
  rcases hv with hfm | hnonneg
  · exact hmask hfm
  · by_contra hge
    have hlt : (elemAt s i).2 < 2 ^ j :=
      (elemAt_lt_two_pow s i).trans_le (pow_le_pow_right₀ (by norm_num) (Nat.not_lt.1 hge))
    rw [zbit_eq_false_of_lt hnonneg hlt] at hown
    cases hown

/-- Where no element has a bit outside its field, the fields do not meet: the field of element i holds its own bits. -/
theorem getLsbD_field_of_placesElements {fm : Bool} {s : State} {n : Nat} {r : Word} (hr : PlacesElements fm s n r)
    (hfit : packTotal s n ≤ 64) (hv : ∀ k < n, fm = true ∨ 0 ≤ (elemAt s k).2) {i j : Nat} (hi : i < n)
    (hj : j < packWidth s i) : r.getLsbD (packShift s i + j) = zbit (elemAt s i).2 j := by
  have hfit' (k : Nat) (hk : k < n) : packTotal s (k + 1) ≤ 64 := (packTotal_mono s hk).trans hfit
  have hend := packShift_add_packWidth (hfit' i hi)
  rw [Bool.eq_iff_iff, hr _ (by omega)]
  constructor
  · rintro ⟨k, hk, hle, hbit⟩
    have hinside := lt_packWidth_of_zbit_packValue (hv k hk) hbit
    rcases Nat.lt_trichotomy k i with hki | rfl | hik
    · have habove := packShift_add_packWidth_le hki (hfit' i hi)
      omega
    · rw [Nat.add_sub_cancel_left] at hbit
      exact ((zbit_packValue fm _ j).1 hbit).2
    · have hbelow := packShift_add_packWidth_le hik (hfit' k hk)
      omega
  · intro hbit
    refine ⟨i, hi, Nat.le_add_right _ _, ?_⟩
    rw [Nat.add_sub_cancel_left]
    exact (zbit_packValue fm _ j).2 ⟨fun _ => hj, hbit⟩

/-! ### UNPK by the elements' own widths (rule R154, rule R161) -/

/-- UNPK succeeds where nothing is tagged and the total fits, with one field per entry. -/
theorem exec_unpk_of_fits {cnt : BitVec 8} {s : State} (htag : ∀ i < cnt.toNat, s.layoutNi.getLsbD i = false)
    (hfit : layoutTotal s cnt.toNat ≤ 64) :
    ∃ fields, exec (.unpk cnt) s = .next (retire 0x8#4 (fieldsOk fields) s) ∧ fields.length = cnt.toNat ∧
      ∀ i < cnt.toNat, fields.getD i 0 = unpackField (uint s.opa) (64 - layoutTotal s i) (layoutAt s i).2 := by
  obtain ⟨fields, hloop, hlen, hfield⟩ := unpackLoop_of_fits (uint s.opa) (layoutInputs s cnt.toNat) 0 64
    ((layoutInputs_untagged_iff s _).2 htag) (by rwa [Nat.zero_add, declaredSum_layoutInputs])
  refine ⟨fields, ?_, hlen.trans (length_layoutInputs s _), fun i hi => ?_⟩
  · rw [exec_eq_retire, effectsOf, unpackEffects, hloop]
    rfl
  · rw [hfield i (by rwa [length_layoutInputs]), take_layoutInputs s hi.le, declaredSum_layoutInputs,
      getElem_layoutInputs]

/-- Layout entries that are the elements' widths have the elements' running totals. -/
theorem layoutTotal_eq_packTotal {s u : State} {n : Nat} (h : ∀ i < n, (layoutAt u i).2 = packWidth s i) :
    layoutTotal u n = packTotal s n :=
  congrArg List.sum (List.map_congr_left fun i hi => h i (List.mem_range.1 hi))

/-- A canonical width classified by bit count is itself (rule R102). -/
theorem cb_bits_of_width (w : Width) : (cb w.bits).bits = w.bits := by cases w <;> rfl

/-- The field of an element's own width below its predecessors is the element modulo 2 to its width. -/
theorem unpackField_of_placesElements {fm : Bool} {s : State} {n : Nat} {r : Word} (hr : PlacesElements fm s n r)
    (hfit : packTotal s n ≤ 64) (hv : ∀ k < n, fm = true ∨ 0 ≤ (elemAt s k).2) {i : Nat} (hi : i < n) :
    (unpackField (uint r) (64 - packTotal s i) (packWidth s i) : Int) = (elemAt s i).2 % 2 ^ packWidth s i := by
  have hend := packShift_add_packWidth ((packTotal_mono s hi).trans hfit)
  have hwidth : (cb (packWidth s i)).bits = packWidth s i := cb_bits_of_width _
  apply eq_of_zbit
  intro j
  rw [← Int.ofNat_eq_natCast, zbit_ofNat, testBit_unpackField _ (Nat.sub_le _ _), ← hend, Nat.add_sub_cancel, hwidth,
    testBit_uint, zbit_emod_two_pow]
  by_cases hj : j < packWidth s i
  · rw [getLsbD_field_of_placesElements hr hfit hv hi hj, decide_eq_true hj, decide_eq_true (by omega), Bool.and_true,
      Bool.true_and]
  · rw [decide_eq_false hj, decide_eq_false (by omega), Bool.and_false, Bool.false_and]

/-- A residue modulo 2 to a canonical width fits the word. -/
theorem toNat_word_emod (a : Int) (w : Width) : ((word (a % 2 ^ w.bits)).toNat : Int) = a % 2 ^ w.bits := by
  have hnonneg : 0 ≤ a % 2 ^ w.bits := Int.emod_nonneg _ (by positivity)
  have hlt : a % 2 ^ w.bits < 2 ^ 64 :=
    (Int.emod_lt_of_pos _ (by positivity)).trans_le (pow_le_pow_right₀ (by norm_num) w.bits_le)
  rw [word, BitVec.toNat_ofInt, Int.toNat_of_nonneg (Int.emod_nonneg _ (by norm_num))]
  exact Int.emod_eq_of_lt hnonneg hlt

/-- An element that is not negative is the signed reading of its residue. -/
theorem toInt_word_elemAt_emod {s : State} {i : Nat} (h : 0 ≤ (elemAt s i).2) :
    (word ((elemAt s i).2 % 2 ^ packWidth s i)).toInt = (elemAt s i).2 := by
  rw [Int.emod_eq_of_lt h (elemAt_lt_two_pow s i), elemAt, word_sint]
  rfl

/-- Settles O25: the layout has the elements' running totals, so UNPK's fields are those of the packed word. -/
theorem unpackUndoesPack : Obligations.UnpackUndoesPack := by
  intro fm cnt s t u hpack hok hv hopa hlayout
  obtain ⟨htag, hfit⟩ := fits_of_pack_not_failed hpack hok
  have hcount := eight_mul_le_packTotal s cnt.toNat
  obtain ⟨r, hexec, hr⟩ := exec_pack_of_fits fm htag hfit
  have hresult : t.result = r := by
    rw [hpack, Host.Outcome.next.injEq] at hexec
    rw [hexec]
    rfl
  have htotal (n : Nat) (hn : n ≤ cnt.toNat) : layoutTotal u n = packTotal s n :=
    layoutTotal_eq_packTotal fun i hi => (hlayout i (hi.trans_le hn)).2
  obtain ⟨fields, hunpack, hlen, hfield⟩ :=
    exec_unpk_of_fits (fun i hi => (hlayout i hi).1) (by rwa [htotal _ le_rfl])
  refine ⟨_, hunpack, rfl, ?_, fun i h64 hi => ?_⟩
  · rw [retire_fieldsOk, hlen]
    exact (BitVec.toNat_ofNat _ _).trans (Nat.mod_eq_of_lt (by omega))
  · have hout : (retire 0x8#4 (fieldsOk fields) u).out[i] = word ((elemAt s i).2 % 2 ^ packWidth s i) := by
      have hv' (k : Nat) (hk : k < cnt.toNat) : fm = true ∨ 0 ≤ (elemAt s k).2 := hv.imp_right fun h => h k hk
      have hget : (retire 0x8#4 (fieldsOk fields) u).out[i] = word (fields.getD i 0 : Nat) := by simp
      rw [hget, hfield i hi, (hlayout i hi).2, htotal i hi.le, hopa, hresult,
        unpackField_of_placesElements hr hfit hv' hi]
    rw [hout]
    exact ⟨toNat_word_emod _ _, toInt_word_elemAt_emod⟩

end Sys2Proof.Machine

/-! PROOFS of the family 44_barrel_shifter_unpacker.md: UNPK by LAYOUT (rules R160 to R163). The layout's running totals and the
closed form of a field come first, then the obligations. -/

namespace Sys2Proof.Machine

open Sys2Proof

/-! ### The layout (rule R161) -/

/-- The entries before entry j, entry j, and whatever follows. -/
theorem exists_layoutInputs_eq_append_cons (s : State) {j n : Nat} (h : j < n) :
    ∃ post, layoutInputs s n = layoutInputs s j ++ layoutAt s j :: post := by
  have hlen : j < (layoutInputs s n).length := by rwa [length_layoutInputs]
  refine ⟨(layoutInputs s n).drop (j + 1), ?_⟩
  rw [← take_layoutInputs s h.le, ← getElem_layoutInputs s n j hlen, List.getElem_cons_drop, List.take_append_drop]

/-- An entry adds its declared width to the running total. -/
theorem layoutTotal_succ (s : State) (n : Nat) : layoutTotal s (n + 1) = layoutTotal s n + (layoutAt s n).2 := by
  simp [layoutTotal, List.range_succ]

/-- The running total does not decrease. -/
theorem layoutTotal_mono (s : State) : Monotone (layoutTotal s) :=
  monotone_nat_of_le_succ fun n => layoutTotal_succ s n ▸ Nat.le_add_right _ _

/-- Where the total fits, each entry finds its declared width left below the cursor. -/
theorem layoutAt_le_cursor {s : State} {i n : Nat} (hfit : layoutTotal s n ≤ 64) (hi : i < n) :
    (layoutAt s i).2 ≤ 64 - layoutTotal s i := by
  have hnext : layoutTotal s (i + 1) ≤ 64 := (layoutTotal_mono s hi).trans hfit
  rw [layoutTotal_succ] at hnext
  omega

/-- The declared width of an entry within the depth is the byte of LAYOUT (rule R31). -/
theorem layoutAt_width (s : State) {i : Nat} (h : i < 64) : (layoutAt s i).2 = s.layout[i].toNat := by
  simp [layoutAt, Vector.getD, h]

/-! ### The closed form of a field (rule R163) -/

/-- A field of at most 8 or canonical bits lies whole inside its mask. -/
theorem unpackField_of_narrow_or_canonical (u : Nat) {c d : Nat} (hc : c ≤ 64) (hd : d ≤ c)
    (h : d ≤ 8 ∨ d = 16 ∨ d = 32 ∨ d = 64) : unpackField u c d = u / 2 ^ (c - d) % 2 ^ d := by
  have hmask : d ≤ (cb d).bits := by
    have hcb := cb_bits d
    split_ifs at hcb <;> omega
  apply Nat.eq_of_testBit_eq
  intro j
  have hrange : (c - d + j < c ∧ c ≤ c - d + j + (cb d).bits) ↔ j < d := by omega
  rw [testBit_unpackField u hc, decide_eq_decide.2 hrange, Nat.testBit_mod_two_pow, Nat.testBit_div_two_pow,
    Bool.and_comm, Nat.add_comm]

/-- Of a wider field that is not canonical, the mask keeps the top 8 bits, in their place. -/
theorem unpackField_of_wide (u : Nat) {c d : Nat} (hc : c ≤ 64) (hd : d ≤ c)
    (h : ¬ (d ≤ 8 ∨ d = 16 ∨ d = 32 ∨ d = 64)) : unpackField u c d = u / 2 ^ (c - 8) % 2 ^ 8 * 2 ^ (d - 8) := by
  have hmask : (cb d).bits = 8 := by
    have hcb := cb_bits d
    split_ifs at hcb <;> omega
  apply Nat.eq_of_testBit_eq
  intro j
  rw [testBit_unpackField u hc, hmask, Nat.testBit_mul_two_pow, Nat.testBit_mod_two_pow, Nat.testBit_div_two_pow]
  by_cases hj : d - 8 ≤ j
  · have hbit : j - (d - 8) + (c - 8) = c - d + j := by omega
    have hrange : (c - d + j < c ∧ c ≤ c - d + j + 8) ↔ j - (d - 8) < 8 := by omega
    rw [hbit, decide_eq_decide.2 hrange, decide_eq_true hj, Bool.true_and, Bool.and_comm]
  · have hrange : ¬ (c - d + j < c ∧ c ≤ c - d + j + 8) := by omega
    rw [decide_eq_false hrange, decide_eq_false hj, Bool.and_false, Bool.false_and]

/-- The field that UNPK extracts has the closed form of rule R163. -/
theorem unpackField_eq_closedField (u : Nat) {c d : Nat} (hc : c ≤ 64) (hd : d ≤ c) :
    unpackField u c d = closedField u c d := by
  rw [closedField]
  split_ifs with h
  · exact unpackField_of_narrow_or_canonical u hc hd h
  · exact unpackField_of_wide u hc hd h

/-! ### What UNPK leaves (rule R160) -/

/-- Without a field, every OUT is 0. -/
theorem ofFn_noFields : (Vector.ofFn fun i : Fin 64 => word (([] : List Nat).getD i.val 0 : Nat)) =
    Vector.replicate 64 0#64 := by
  ext i hi
  simp [word]

/-- A failure of UNPK leaves every OUT 0, COUNT and RESULT 0, the event and FAIL = 1 (rule R183). -/
@[simp] theorem retire_fieldsFail (op : BitVec 4) (e : BitError) (s : State) :
    retire op (fieldsFail e) s = { errAfter s op 0#64 e.code true with out := Vector.replicate 64 0#64 } := by
  rw [← ofFn_noFields]
  rfl

/-- Settles O20: UNPK's fields are those of the loop, and each has the closed form because its width is left below the
cursor. -/
theorem unpkExtractsClosedFormFields : Obligations.UnpkExtractsClosedFormFields := by
  intro cnt s _ htag hfit
  obtain ⟨fields, hexec, hlen, hfield⟩ := exec_unpk_of_fits htag hfit
  refine ⟨Vector.ofFn fun i => word (fields.getD i.val 0 : Nat), fun i h64 => ?_, ?_⟩
  · rw [Vector.getElem_ofFn]
    split_ifs with hi
    · rw [hfield i hi, unpackField_eq_closedField _ (Nat.sub_le _ _) (layoutAt_le_cursor hfit hi), layoutAt_width s h64]
      exact BitVec.ofInt_natCast 64 _
    · have hbeyond : fields.length ≤ i := hlen.trans_le (Nat.not_lt.1 hi)
      rw [List.getD_eq_default _ _ hbeyond]
      rfl
  · rw [hexec, retire_fieldsOk, hlen]

/-- Settles O21: the entries before entry j pass both checks, so the loop ends at entry j with the error of its tag or of the
total. -/
theorem unpkFailsAtFirstBadEntry : Obligations.UnpkFailsAtFirstBadEntry := by
  intro cnt s j err hj _ htag hfit hbad
  obtain ⟨post, hpost⟩ := exists_layoutInputs_eq_append_cons s hj
  have hstop : (layoutAt s j).1 = true ∨ 64 < 0 + declaredSum (layoutInputs s j) + (layoutAt s j).2 := by
    rw [Nat.zero_add, declaredSum_layoutInputs, ← layoutTotal_succ]
    exact hbad.imp And.left fun ⟨_, hover, _⟩ => hover
  have hloop := unpackLoop_of_bad (uint s.opa) (layoutInputs s j) post (layoutAt s j).1 (layoutAt s j).2 0 64
    ((layoutInputs_untagged_iff s j).2 htag) (by rwa [Nat.zero_add, declaredSum_layoutInputs]) hstop
  have hcode : (if (layoutAt s j).1 then BitError.nonIntegerElement else .totalWidthExceeded).code = err := by
    rcases hbad with ⟨htagged, rfl⟩ | ⟨huntagged, -, rfl⟩
    · rw [layoutAt, htagged]
      rfl
    · rw [layoutAt, huntagged]
      rfl
  rw [exec_eq_retire, effectsOf, unpackEffects, hpost, hloop, retire_fieldsFail, hcode]
  rfl

/-- Settles O22: an empty layout fits, and UNPK succeeds without a field. -/
theorem unpkOfEmptyLayoutSucceeds : Obligations.UnpkOfEmptyLayoutSucceeds := by
  intro s
  have heffects : effectsOf (.unpk 0#8) s = fieldsOk [] := rfl
  rw [exec_eq_retire, heffects, retire_fieldsOk, ofFn_noFields]
  rfl

end Sys2Proof.Machine

/-! PROOFS of the family 45_bitstring_renderer.md: STRF (rules R170 to R173). The characters of the rendered string come first, then
the obligation. -/

namespace Sys2Proof.Machine

open Sys2Proof

/-- The rendered string has a character per bit and one per byte group (rule R172). -/
theorem length_render (num : Int) : (render num).length = (cw num).bits + (cw num).bits / 8 := by
  rw [render, List.length_reverse, length_renderLsbFirst]

/-- Character p of the rendered string: the reversal turns the separator after each byte group into one before it (rule R172). -/
theorem getD_render {num : Int} {p : Nat} (hp : p < (render num).length) :
    (render num).getD p 0#8 =
      if p % 9 = 0 then Config.strSep
      else digit (zbit num ((cw num).bits - 1 - (8 * (p / 9) + p % 9 - 1))) := by
  have hbytes : (cw num).bits % 8 = 0 := by
    obtain h | h | h | h := (cw num).bits_cases <;> rw [h]
  rw [length_render] at hp
  rw [render, List.getD_reverse _ (by rwa [length_renderLsbFirst]), length_renderLsbFirst,
    getD_renderLsbFirst _ _ _ (by omega)]
  by_cases hsep : p % 9 = 0
  · rw [if_pos hsep, if_pos (by omega)]
  · rw [if_neg hsep, if_neg (by omega)]
    congr 2
    omega

/-- A success of STRF leaves the state of `okAfter` but for COUNT and STR (rule R170). -/
@[simp] theorem retire_stringOk (op : BitVec 4) (w : Width) (t : List Byte) (s : State) :
    retire op (stringOk w t) s = { okAfter s op (word w.bits) with
      count := BitVec.ofNat 7 t.length
      str := Vector.ofFn fun p => t.getD p.val 0#8 } := by
  simp [retire, finish, writeOutputs, stringOk, okAfter, diagEvents, errCode]

/-- Settles O24: STR holds the rendered string, whose characters `getD_render` gives, and zeros beyond its length. -/
theorem strfRendersTheBitPattern : Obligations.StrfRendersTheBitPattern := by
  refine ⟨decode_eq_ok_iff rfl, fun s => ?_⟩
  intro w n
  have hlen : (render (opaInt s)).length = n := length_render _
  refine ⟨Vector.ofFn fun p => (render (opaInt s)).getD p.val 0#8, fun p _ => ?_, ?_⟩
  · rw [Vector.getElem_ofFn]
    dsimp only
    by_cases hbeyond : n ≤ p
    · rw [if_pos hbeyond]
      exact List.getD_eq_default _ _ (hlen.trans_le hbeyond)
    · have hinside : w - 1 - (8 * (p / 9) + p % 9 - 1) < 64 := by
        have hpos := (cw s.opa.toInt).eight_le_bits
        have hw := (cw s.opa.toInt).bits_le
        omega
      rw [if_neg hbeyond, getD_render (by omega), opaInt, zbit_sint]
      exact congrArg (if p % 9 = 0 then Config.strSep else digit ·) (if_pos hinside)
  · rw [exec_eq_retire, effectsOf, retire_stringOk, hlen, word, BitVec.ofInt_natCast]
    rfl

end Sys2Proof.Machine

/-! PROOFS of the family 60_exceptions.md: the error codes (rules R180 and R181), the illegal word (rule R182) and the growth of
DIAGLOG (rule R185). The errors that each check and each loop can give come first. -/

namespace Sys2Proof.Machine

open Sys2Proof

/-! ### What each opcode can raise (rule R180) -/

/-- The column "raised by" of the table of rule R180, for the commands: `raisedBy_of_effectsOf` ties it to what they give. An
illegal word is no command. -/
def BitError.RaisedBy (op : BitVec 4) : BitError → Prop
  | .indexOutOfRange | .indexNotPositive => op = 0x4#4 ∨ op = 0x5#4
  | .rangeExceedsWidth | .rangeNotPositive | .invalidRange => op = 0x6#4
  | .nonIntegerElement | .totalWidthExceeded => op = 0x7#4 ∨ op = 0x8#4
  | .illegalCommand => False

/-- An error that GETB or SETB raises is one of the index check's (rule R120). -/
theorem raisedBy_of_idxcheck {op : BitVec 4} (hop : op = 0x4#4 ∨ op = 0x5#4) {num index : Int} {tb : Bool}
    {e : BitError} (h : idxcheck num index tb = some e) : e.RaisedBy op := by
  rcases idxcheck_cases num index tb with ⟨h', -⟩ | ⟨h', -⟩ | ⟨h', -⟩ <;> cases h'.symm.trans h
  · exact hop
  · exact hop

/-- An error that CUTB raises is one of the range check's (rule R125). -/
theorem raisedBy_of_cutcheck {num lo hi : Int} {e : BitError} (h : cutcheck num lo hi = some e) :
    e.RaisedBy 0x6#4 := by
  rcases cutcheck_cases num lo hi with ⟨h', -⟩ | ⟨h', -⟩ | ⟨h', -⟩ | ⟨h', -⟩ <;> cases h'.symm.trans h
  · rfl
  · rfl
  · rfl

/-- The packer's loop ends with an error only at a tag or above 64 bits (rule R151). -/
theorem packLoop_eq_error {fm : Bool} {l : List (Bool × Int)} {total : Nat} {acc : Int} {e : BitError}
    (h : packLoop fm l total acc = .error e) : e = .nonIntegerElement ∨ e = .totalWidthExceeded := by
  induction l generalizing total acc with
  | nil => cases h
  | cons p l ih =>
    rw [packLoop] at h
    split_ifs at h
    · cases h
      exact .inl rfl
    · cases h
      exact .inr rfl
    · exact ih h

/-- The unpacker's loop ends with an error only at a tag or above 64 bits (rule R161). -/
theorem unpackLoop_eq_error {u : Nat} {l : List (Bool × Nat)} {total cursor : Nat} {e : BitError}
    (h : unpackLoop u l total cursor = .error e) : e = .nonIntegerElement ∨ e = .totalWidthExceeded := by
  induction l generalizing total cursor with
  | nil => cases h
  | cons p l ih =>
    rw [unpackLoop] at h
    split_ifs at h
    · cases h
      exact .inl rfl
    · cases h
      exact .inr rfl
    · cases hrest : unpackLoop u l (total + p.2) (cursor - p.2) with
      | error e' =>
        rw [hrest] at h
        cases h
        exact ih hrest
      | ok fields =>
        rw [hrest] at h
        cases h

/-- GETB reports or fails with the outcome of the index check (rule R121). -/
theorem getbEffects_err (strict tb : Bool) (num index : Int) :
    (getbEffects strict tb num index).err = idxcheck num index tb := by
  rw [getbEffects]
  cases idxcheck num index tb with
  | none => rfl
  | some e => cases strict <;> rfl

/-- SETB fails with the outcome of the index check (rule R123). -/
theorem setbEffects_err (st tb andn : Bool) (num index : Int) :
    (setbEffects st tb andn num index).err = idxcheck num index tb := by
  rw [setbEffects]
  cases idxcheck num index tb <;> rfl

/-- CUTB fails with the outcome of the range check (rule R126). -/
theorem cutbEffects_err (tr : Bool) (num lo hi : Int) :
    (cutbEffects tr num lo hi).err = cutcheck num lo hi := by
  rw [cutbEffects]
  cases cutcheck num lo hi <;> rfl

/-- PACK fails with one of the two errors of its loop (rule R151). -/
theorem packEffects_err {fm : Bool} {l : List (Bool × Int)} {e : BitError} (h : (packEffects fm l).err = some e) :
    e = .nonIntegerElement ∨ e = .totalWidthExceeded := by
  rw [packEffects] at h
  cases hloop : packLoop fm l 0 0 with
  | ok acc =>
    rw [hloop] at h
    cases h
  | error e' =>
    rw [hloop] at h
    cases h
    exact packLoop_eq_error hloop

/-- UNPK fails with one of the two errors of its loop (rule R161). -/
theorem unpackEffects_err {u : Nat} {l : List (Bool × Nat)} {e : BitError} (h : (unpackEffects u l).err = some e) :
    e = .nonIntegerElement ∨ e = .totalWidthExceeded := by
  rw [unpackEffects] at h
  cases hloop : unpackLoop u l 0 64 with
  | ok fields =>
    rw [hloop] at h
    cases h
  | error e' =>
    rw [hloop] at h
    cases h
    exact unpackLoop_eq_error hloop

/-- PACK and UNPK raise the two errors of their loops (rule R180). -/
theorem raisedBy_of_loop {op : BitVec 4} (hop : op = 0x7#4 ∨ op = 0x8#4) {e : BitError}
    (h : e = .nonIntegerElement ∨ e = .totalWidthExceeded) : e.RaisedBy op := by
  rcases h with rfl | rfl
  · exact hop
  · exact hop

/-- A command gives no error but those that the table of rule R180 has for its opcode. -/
theorem raisedBy_of_effectsOf {i : Instr} {s : State} {e : BitError} (h : (effectsOf i s).err = some e) :
    e.RaisedBy i.opcode := by
  cases i with
  | clsv | clsb | mask | strf => cases h
  | getb strict tb => exact raisedBy_of_idxcheck (.inl rfl) ((getbEffects_err strict tb _ _).symm.trans h)
  | setb st tb andn => exact raisedBy_of_idxcheck (.inr rfl) ((setbEffects_err st tb andn _ _).symm.trans h)
  | cutb tr => exact raisedBy_of_cutcheck ((cutbEffects_err tr _ _ _).symm.trans h)
  | pack => exact raisedBy_of_loop (.inl rfl) (packEffects_err h)
  | unpk | unpkDflt => exact raisedBy_of_loop (.inr rfl) (unpackEffects_err h)

/-- Settles O34: ERR is the code of the command's error, and each error stands in the row of rule R180 that its code names. -/
theorem errorCodesByOpcode : Obligations.ErrorCodesByOpcode := by
  intro i s t hexec herr
  obtain rfl := exec_next hexec
  rw [retire_statusErr] at herr ⊢
  obtain ⟨e, he⟩ := Option.ne_none_iff_exists'.1 (mt (errCode_eq_zero_iff _).2 herr)
  have hraised : e.RaisedBy i.opcode := raisedBy_of_effectsOf he
  rw [he]
  cases e with
  | indexOutOfRange => exact .inl ⟨.inl rfl, hraised⟩
  | indexNotPositive => exact .inl ⟨.inr rfl, hraised⟩
  | rangeExceedsWidth => exact .inr (.inl ⟨.inl rfl, hraised⟩)
  | rangeNotPositive => exact .inr (.inl ⟨.inr (.inl rfl), hraised⟩)
  | invalidRange => exact .inr (.inl ⟨.inr (.inr rfl), hraised⟩)
  | nonIntegerElement => exact .inr (.inr ⟨.inl rfl, hraised⟩)
  | totalWidthExceeded => exact .inr (.inr ⟨.inr rfl, hraised⟩)
  | illegalCommand => exact hraised.elim

/-! ### Commands that never fail (rule R181) -/

/-- The effects of the four commands without an error path: no error and no failure (rule R181). -/
theorem effectsOf_total {i : Instr} (hi : i = .clsv ∨ i = .clsb ∨ i = .mask ∨ i = .strf) (s : State) :
    (effectsOf i s).failed = false ∧ (effectsOf i s).err = none := by
  rcases hi with rfl | rfl | rfl | rfl <;> exact ⟨rfl, rfl⟩

/-- Settles O33: `retire` writes to FAIL and ERR what the command gives. -/
theorem totalCommandsNeverFail : Obligations.TotalCommandsNeverFail := by
  intro i s hi
  obtain ⟨hfailed, herr⟩ := effectsOf_total hi s
  exact ⟨_, exec_eq_retire i s, hfailed, congrArg errCode herr⟩

/-! ### The illegal word (rule R182) -/

/-- Settles O7: a word that is not legal does not decode, and the step that completes it is `illegalCommand`. -/
theorem illegalWordCompletesWithCodeEight : Obligations.IllegalWordCompletesWithCodeEight := by
  intro s c hnext hillegal
  rw [step_of_engineNext hnext]
  cases hd : decode c with
  | ok i => exact absurd (legal_of_decode hd) hillegal
  | error e => rfl

/-! ### The growth of DIAGLOG (rule R185, rule R200) -/

/-- No host access touches DIAGLOG, the reset input among them (rule R200). -/
theorem hostStep_diaglog {a : HostOp} {rest : List HostOp} {s t : State} (h : hostStep a rest s = .next t) :
    t.diaglog = s.diaglog := by
  rcases hostStep_next h with ⟨off, size, -, -, rfl⟩ | ⟨off, size, v, -, -, rfl⟩ | ⟨-, rfl⟩ | ⟨-, rfl⟩ | ⟨-, rfl⟩
  · rfl
  · obtain ⟨-, -, -, -, -, -, -, hlog, -⟩ := memWrite_frame off size v (arrive rest s)
    exact hlog
  · rfl
  · rfl
  · rw [releaseReset]
    split <;> rfl

/-- Settles O53: a completion appends its events, and every other step leaves DIAGLOG as it was. -/
theorem diagLogOnlyGrows : Obligations.DiagLogOnlyGrows := by
  intro s t hstep
  rcases step_next hstep with ⟨c, i, -, -, hexec⟩ | ⟨c, e, -, -, rfl⟩ | ⟨a, rest, -, h⟩ | ⟨-, rfl⟩
  · obtain rfl := exec_next hexec
    exact List.prefix_append _ _
  · exact List.prefix_append _ _
  · rw [hostStep_diaglog h]
  · exact List.prefix_rfl

end Sys2Proof.Machine

/-! PROOFS of the family 70_reset_and_hazards.md: the reset input (rule R200) and the final states of a run (rule R205). -/

namespace Sys2Proof.Machine

open Sys2Proof

/-! ### The reset input (rule R200) -/

/-- The assertion of reset takes effect as `resetBlock`, whatever the level before. -/
theorem hostStep_assertReset (rest : List HostOp) (s : State) :
    hostStep .assertReset rest s = .next (resetBlock true (arrive rest s)) := rfl

/-- The release of an asserted reset takes effect as `resetBlock`. -/
theorem hostStep_releaseReset_of_inReset {s : State} (hr : s.inReset = true) (rest : List HostOp) :
    hostStep .releaseReset rest s = .next (resetBlock false (arrive rest s)) :=
  congrArg Host.Outcome.next (if_pos hr)

/-- The reset values after the arrival of an access: of the state before, DIAGLOG, the returned values and the draws stay. -/
theorem resetBlock_arrive (level : Bool) (rest : List HostOp) (s : State) :
    resetBlock level (arrive rest s) = { State.reset with
      diaglog := s.diaglog, inReset := level, host := rest, reads := s.reads, draws := s.draws } := rfl

/-- Settles O48: both edges of the input are host steps that end in `resetBlock`, and an asserted input is the first case of
every read and write. -/
theorem resetInputHoldsTheBlock : Obligations.ResetInputHoldsTheBlock := by
  refine ⟨fun s rest hnext => ?assertion, fun s off size v hr => ?access, fun s rest hr hnext => ?release⟩
  case assertion => rw [step_of_hostNext hnext, hostStep_assertReset, resetBlock_arrive]
  case access => exact ⟨memRead_eq_zero (.inl hr), memWrite_of_inReset hr off size v⟩
  case release => rw [step_of_hostNext hnext, hostStep_releaseReset_of_inReset hr, resetBlock_arrive]

/-! ### The final states of a run (rule R205) -/

/-- In a final state neither agent acts next. -/
theorem turn_of_final {s : State} (h : s.Final) : turn s = .idle := by
  obtain ⟨hhost, hpend⟩ := h
  simp only [turn, hhost, hpend]

/-- Settles O55: with no agent to act, the step is the idle one. -/
theorem finalStateStays : Obligations.FinalStateStays := by
  intro s hfinal
  simp only [step, turn_of_final hfinal]

end Sys2Proof.Machine
